-- ==== Sys2Proof/Word.lean ====
section
/-! DEFINITION. The block's smallest values: one bit, and the 8-bit command word. -/

namespace Sys2Proof

/-- An element of `{0,1}` (00_scope.md R7); `true` is 1. Its XOR and AND are Lean's own on `Bool`, whose truth tables
are those of 00_scope.md R8. -/
abbrev Bit := Bool

/-- A command word: 8 bits, numbered 7 (most significant) down to 0 (30_encoding.md R36). -/
abbrev CmdWord := BitVec 8

/-- The mathematical integer a bit stands for: operands at the operation level are integers (00_scope.md R9). -/
def bitInt : Bit → Int
  | false => 0
  | true => 1

end Sys2Proof
end

