-- ==== Sys2Proof/Config.lean ====
section
/-! DEFINITION. What is fixed for a machine: the constants the spec gives, the two parameters it leaves open (with no
body, so that nothing can be proved of their value), and the construction arguments that `State.reset` is built with. -/

namespace Sys2Proof

/-- The two values of the open parameter SEQ_FAIL_POLICY (92_eei_decisions.md D13). -/
inductive SeqFailPolicy where
  /-- `atomic`: the whole operand is checked first and the registers are unchanged. -/
  | atomic
  /-- `prefix`: the command has behaved as its expansion up to the first bad element. -/
  | prefixed
deriving DecidableEq, Repr, Inhabited

/-- What the registers hold after a failed A.RUN, A.SIGCHAIN or B.SIGCHAIN: OPEN (92_eei_decisions.md D13,
40_variant_a.md R54). A free value: it has no body. Log 6. -/
opaque Config.seqFailPolicy : SeqFailPolicy

/-- The draw behind GEN_ORDER (92_eei_decisions.md D19, 42_mask_generator.md R86): for the window width, the error
count and the number of masks already placed, where the next mask goes. A free value: it has no body. Log 7. -/
opaque Config.genOrder : Nat → Nat → Nat → Nat

/-- The largest legal error count (00_scope.md R5). -/
def Config.maxErrors : Nat := 4

/-- The width of the instance that `State.reset` is (the source's only worked instance, 00_scope.md R4).
DESIGN CHOICE, unsafe: log 4. -/
def Config.resetWidth : Nat := 8

/-- The polynomial mask of the instance that `State.reset` is: `[1,0,1,0,0,1,1,0]` (00_scope.md R4).
DESIGN CHOICE, unsafe: log 4. -/
def Config.resetPoly : List Bit := [true, false, true, false, false, true, true, false]

end Sys2Proof
end

