-- ==== Sys2Proof/Syntax.lean ====
section
/-! DEFINITION. The block's instructions: the seven commands of 30_encoding.md R37, at the operation level, where an
operand is a mathematical integer or a finite list of them (30_encoding.md R35; 00_scope.md R9). -/

namespace Sys2Proof

/-- One constructor per row of spec/opcode_table.json. -/
inductive Instr where
  /-- `A.RESET` (40_variant_a.md R53). -/
  | aReset
  /-- `A.ADVANCE bit` (40_variant_a.md R50). -/
  | aAdvance (bit : Int)
  /-- `A.RUN s` (40_variant_a.md R52). -/
  | aRun (s : List Int)
  /-- `A.SIGCHAIN s` (40_variant_a.md R56). -/
  | aSigchain (s : List Int)
  /-- `B.RESET` (41_variant_b.md R68). -/
  | bReset
  /-- `B.STEP2 x0, x1` (41_variant_b.md R67). -/
  | bStep2 (x0 x1 : Int)
  /-- `B.SIGCHAIN s` (41_variant_b.md R70). -/
  | bSigchain (s : List Int)
deriving DecidableEq, Repr

/-- The channel mode: `single` selects engine A, `dual` engine B (43_aliasing_tester.md R91). -/
inductive ChannelMode where
  | single
  | dual
deriving DecidableEq, Repr

end Sys2Proof
end

