-- ==== Sys2Proof/WellFormed.lean ====
section
/-! DEFINITION. Which integers are bits, which sequences are proper, and which instructions have a command word. -/

namespace Sys2Proof

/-- The integer 0 or the integer 1 (00_scope.md R9). -/
abbrev IsBit (v : Int) : Prop := v = 0 ∨ v = 1

/-- A proper bit sequence: every element is the integer 0 or 1; the empty sequence is one (00_scope.md R9). -/
abbrev Proper (s : List Int) : Prop := ∀ v ∈ s, IsBit v

/-- The instructions that have a command word. A call whose immediate operand is not a bit exists at the operation
level only (30_encoding.md R38, R49); a sequence operand stands beside the word and may hold any integers
(30_encoding.md R39). -/
def Instr.wellFormed : Instr → Bool
  | .aReset => true
  | .aAdvance bit => decide (IsBit bit)
  | .aRun _ => true
  | .aSigchain _ => true
  | .bReset => true
  | .bStep2 x0 x1 => decide (IsBit x0) && decide (IsBit x1)
  | .bSigchain _ => true

end Sys2Proof
end

