-- ==== Sys2Proof/Decode.lean ====
section
/-! DEFINITION. The decoder of the 8-bit command word, total and refusing reserved words by name, and the encoder. -/

namespace Sys2Proof

/-- Why a command word is reserved (30_encoding.md R40). The refusal is the spec's; the reasons' names and their order
are the model's (log 12). -/
inductive Reserved where
  /-- `op` is 000, 101, 110 or 111. -/
  | operation
  /-- `z` is not 00. -/
  | zField
  /-- `u = 1` with `op = 011`: engine B has no RUN. -/
  | noRunOnB
  /-- A data bit is set where 30_encoding.md R36 says it must be 0. -/
  | dataBit
deriving DecidableEq, Repr

/-- The fields of a command word (30_encoding.md R36). -/
structure Fields where
  u : Bit
  op : BitVec 3
  z : BitVec 2
  d1 : Bit
  d0 : Bit
deriving DecidableEq, Repr

/-- The fields at their bits: 7, 6:4, 3:2, 1 and 0 (30_encoding.md R36). -/
def fieldsOf (c : CmdWord) : Fields :=
  { u := c.getLsbD 7, op := c.extractLsb' 4 3, z := c.extractLsb' 2 2, d1 := c.getLsbD 1, d0 := c.getLsbD 0 }

/-- The first reason of 30_encoding.md R40 that holds of a word which is no command. -/
def reservedWhy (c : CmdWord) : Reserved :=
  let f := fieldsOf c
  if f.op = 0#3 ∨ f.op = 5#3 ∨ f.op = 6#3 ∨ f.op = 7#3 then .operation
  else if f.z ≠ 0#2 then .zField
  else if f.u = true ∧ f.op = 3#3 then .noRunOnB
  else .dataBit

/-- What a command word decodes to. -/
inductive Decoded where
  /-- The word is a command, and this is the call it makes. -/
  | instr (i : Instr)
  /-- The word is reserved. -/
  | reserved (why : Reserved)
deriving DecidableEq, Repr

/-- Decoding (30_encoding.md R48), on a word and the list beside it. Only the three sequence commands take the list
(30_encoding.md R39); for the others it is not read (log 9). -/
def decode (c : CmdWord) (operand : List Int) : Decoded :=
  if c = 0x10#8 then .instr .aReset
  else if c &&& 0xFE#8 = 0x20#8 then .instr (.aAdvance (bitInt (c.getLsbD 0)))
  else if c = 0x30#8 then .instr (.aRun operand)
  else if c = 0x40#8 then .instr (.aSigchain operand)
  else if c = 0x90#8 then .instr .bReset
  else if c &&& 0xFC#8 = 0xA0#8 then .instr (.bStep2 (bitInt (c.getLsbD 0)) (bitInt (c.getLsbD 1)))
  else if c = 0xC0#8 then .instr (.bSigchain operand)
  else .reserved (reservedWhy c)

/-- The command word of an instruction (30_encoding.md R49: `0x20 + b`, `0xA0 + 2*x1 + x0`, else the row's match). -/
def encodeWord : Instr → CmdWord
  | .aReset => 0x10#8
  | .aAdvance bit => 0x20#8 + BitVec.ofInt 8 bit
  | .aRun _ => 0x30#8
  | .aSigchain _ => 0x40#8
  | .bReset => 0x90#8
  | .bStep2 x0 x1 => 0xA0#8 + 2#8 * BitVec.ofInt 8 x1 + BitVec.ofInt 8 x0
  | .bSigchain _ => 0xC0#8

/-- The list that goes beside the word: the sequence operand, and nothing for the other commands (30_encoding.md R39). -/
def encodeOperand : Instr → List Int
  | .aRun s => s
  | .aSigchain s => s
  | .bSigchain s => s
  | .aReset => []
  | .aAdvance _ => []
  | .bReset => []
  | .bStep2 _ _ => []

/-- Encoding: the word and the list beside it (30_encoding.md R49). -/
def encode (i : Instr) : CmdWord × List Int := (encodeWord i, encodeOperand i)

/-- The `match` column of the instruction's row (30_encoding.md R37). -/
def rowMatch : Instr → CmdWord
  | .aReset => 0x10#8
  | .aAdvance _ => 0x20#8
  | .aRun _ => 0x30#8
  | .aSigchain _ => 0x40#8
  | .bReset => 0x90#8
  | .bStep2 _ _ => 0xA0#8
  | .bSigchain _ => 0xC0#8

/-- The `mask` column of the instruction's row (30_encoding.md R37). -/
def rowMask : Instr → CmdWord
  | .aReset => 0xFF#8
  | .aAdvance _ => 0xFE#8
  | .aRun _ => 0xFF#8
  | .aSigchain _ => 0xFF#8
  | .bReset => 0xFF#8
  | .bStep2 _ _ => 0xFC#8
  | .bSigchain _ => 0xFF#8

/-- The instruction of a word given as the opcode table numbers its bits; a command word has exactly 8 bits
(30_encoding.md R42), and nothing stands beside it. -/
def decodeTableWord (nbits w : Nat) : Option Instr :=
  if nbits = 8 ∧ w < 256 then
    match decode (BitVec.ofNat 8 w) [] with
    | .instr i => some i
    | .reserved _ => none
  else none

end Sys2Proof
end

