-- ==== Sys2Proof/Machine/State.lean ====
section
/-! DEFINITION. The state of one analyzer instance with the host-side tester beside it, what the caller issues and
receives, the reasons a step can have no next state, and the state after reset. -/

namespace Sys2Proof.Machine

/-- The two failure kinds (60_exceptions.md R100). -/
inductive FailureKind where
  | invalidInput
  | invalidArgument
deriving DecidableEq, Repr

/-- What a failure carries beside its kind: the offending value, and its index for a sequence command
(60_exceptions.md R101). No claim may rest on it (92_eei_decisions.md D7; log 8). -/
structure FailInfo where
  value : Int
  index : Option Nat
deriving DecidableEq, Repr

/-- The payload of a response that is `OK` (30_encoding.md R41), or the result of a host-side procedure
(42_mask_generator.md R80; 43_aliasing_tester.md R90). -/
inductive Payload where
  /-- A.RESET, B.RESET: "no return value". -/
  | nothing
  /-- A.ADVANCE: a copy of `T` after the update. -/
  | vector (v : List Bit)
  /-- A.RUN: the snapshots. -/
  | snapshots (vs : List (List Bit))
  /-- A.SIGCHAIN, B.SIGCHAIN: the chain. -/
  | bits (bs : List Bit)
  /-- B.STEP2: the pair `(o1, o2)`. -/
  | pair (o1 o2 : Bit)
  /-- GENMASKS, COMPUTE_ALIASES: a list of bit sequences. -/
  | sequences (l : List (List Bit))
deriving DecidableEq, Repr

/-- A response: when the status is not `OK` there is no payload (30_encoding.md R41). -/
inductive Response where
  | ok (p : Payload)
  | failed (kind : FailureKind) (info : FailInfo)
deriving DecidableEq, Repr

/-- What the caller can ask for between two operations (20_memory.md R31). -/
inductive Request where
  /-- A command word with the list that stands beside it (30_encoding.md R39). -/
  | command (c : CmdWord) (operand : List Int)
  /-- An operation-level call, which need have no command word (30_encoding.md R35, R49). -/
  | call (i : Instr)
  /-- The construction of the tester with its reference sequence (10_state.md R17; log 18). -/
  | newSession (ref : List Int)
  /-- `GENMASKS ref, k, mode` (42_mask_generator.md R80). -/
  | genMasks (ref : List Int) (k : Int) (mode : ChannelMode)
  /-- `COMPUTE_ALIASES mode, k` (43_aliasing_tester.md R90). -/
  | computeAliases (mode : ChannelMode) (k : Int)
  /-- A hardware reset line (70_reset_and_hazards.md R122; log 21). -/
  | resetLine
deriving DecidableEq, Repr

/-- The machine. `n` to `R2` are the instance's state (10_state.md R10; TAPS is recomputed from `P`, as R13 allows:
`State.taps`, log 13); `REF` is the tester's; `pending` and `responses` are the model's own, its two ends towards the
caller (logs 1 and 2). -/
structure State where
  /-- The register width (10_state.md R12). -/
  n : Nat
  /-- The polynomial mask (10_state.md R11). -/
  P : List Bit
  /-- Engine A's trigger vector (10_state.md R14). -/
  T : List Bit
  /-- Engine B's register 1 (10_state.md R15). -/
  R1 : List Bit
  /-- Engine B's register 2 (10_state.md R15). -/
  R2 : List Bit
  /-- The tester's read-only reference sequence (10_state.md R17). -/
  REF : List Bit
  /-- The requests issued and not yet taken, the next one first (70_reset_and_hazards.md R135). -/
  pending : List Request
  /-- The responses given, the oldest first (30_encoding.md R41; 70_reset_and_hazards.md R135). -/
  responses : List Response
deriving DecidableEq, Repr

/-- The reasons for which the machine would stop for good: none. A failure aborts one operation, is reported to the
caller in its response and is latched nowhere, and the next command runs normally (60_exceptions.md R103, R106), so it
is a next state (log 3). Safe or unsafe does not arise: nothing raises one. -/
inductive Fault where
deriving DecidableEq, Repr

/-- The inputs to which the spec gives no step (60_exceptions.md R110). All are safe: no claim can be proved of a run
through one. The reasons' names, and which is given where two hold, are the model's (logs 12 and 24). -/
inductive Refusal where
  /-- An instruction without a meaning, by its mnemonic: no arm of `exec` answers it. Safe. -/
  | notModelled (mnemonic : String)
  /-- Raised by a step that takes a reserved command word (30_encoding.md R40). Safe. -/
  | reservedWord (c : CmdWord) (why : Reserved)
  /-- Raised by `step` when the caller has issued nothing more: the run has ended (70_reset_and_hazards.md R135;
  log 1). Safe. -/
  | noRequest
  /-- Raised by `construct` with `n = 0`, a mask that has not `n` entries, or an entry that is not 0 or 1
  (30_encoding.md R46; log 22). Safe. -/
  | badConstruction
  /-- Raised by GENMASKS and COMPUTE_ALIASES when the reference is shorter than the window
  (42_mask_generator.md R87). Safe. -/
  | shortReference
  /-- Raised by GENMASKS and by a new test session when the reference is no proper bit sequence
  (42_mask_generator.md R88). Safe. -/
  | improperReference
deriving DecidableEq, Repr

/-- The machine right after construction (70_reset_and_hazards.md R120), with the construction arguments of Config
(DESIGN CHOICE, log 4), no test session begun (DESIGN CHOICE, log 5) and no request issued. -/
def State.reset : State :=
  { n := Config.resetWidth
    P := Config.resetPoly
    T := List.replicate Config.resetWidth false
    R1 := List.replicate Config.resetWidth false
    R2 := List.replicate Config.resetWidth false
    REF := []
    pending := []
    responses := [] }

end Sys2Proof.Machine
end

