-- ==== Sys2Proof/Machine/Operands.lean ====
section
/-! DEFINITION. Operand forms: an integer read as a bit, a sequence operand read as bits up to its first bad element,
the pairs of engine B's operand; and the arithmetic on bits that every rule uses. -/

namespace Sys2Proof.Machine

/-- The XOR of all elements; the empty one is 0 (00_scope.md R8; log 19). -/
def xorReduce : List Bit → Bit
  | [] => false
  | b :: bs => xor b (xorReduce bs)

/-- `invert_bit(x) = 1 - x` (00_scope.md R8). -/
def invertBit : Bit → Bit
  | false => true
  | true => false

/-- Element `i` of a vector. In the states the spec allows no rule reads outside it; elsewhere the answer is 0
(log 14). -/
def bitAt (v : List Bit) (i : Nat) : Bit := v.getD i false

/-- The vector of `n` bits whose element `i` is `f i`. -/
def vecOf (n : Nat) (f : Nat → Bit) : List Bit := (List.range n).map f

/-- `n` zeros. -/
def zeros (n : Nat) : List Bit := List.replicate n false

/-- A vector as a number: bit `i` of the number is element `i` of the vector (20_memory.md R27). -/
def pack : List Bit → Nat
  | [] => 0
  | b :: v => b.toNat + 2 * pack v

/-- A one-bit operand: the integers 0 and 1, and no other (00_scope.md R9). -/
def bitOf (v : Int) : Option Bit :=
  if v = 0 then some false else if v = 1 then some true else none

/-- A sequence operand, read. -/
inductive Checked where
  /-- It is a proper bit sequence, these bits. -/
  | proper (bs : List Bit)
  /-- Its first bad element is reported as `info`; the bits before it are `before`. -/
  | improper (before : List Bit) (info : FailInfo)
deriving DecidableEq, Repr

/-- Put a bit in front of what was read. -/
def Checked.push (b : Bit) : Checked → Checked
  | .proper bs => .proper (b :: bs)
  | .improper before info => .improper (b :: before) info

/-- Read a sequence from index `i` on; the bad element reported is the one with the lowest index
(60_exceptions.md R105). -/
def checkFrom (i : Nat) : List Int → Checked
  | [] => .proper []
  | v :: s =>
    match bitOf v with
    | some b => (checkFrom (i + 1) s).push b
    | none => .improper [] { value := v, index := some i }

/-- Read a whole sequence operand (00_scope.md R9; 40_variant_a.md R54). -/
def checkSeq (s : List Int) : Checked := checkFrom 0 s

/-- The part of engine B's operand that is consumed: the first `2 * floor(length/2)` elements (20_memory.md R28;
41_variant_b.md R72). -/
def consumed (s : List Int) : List Int := s.take (2 * (s.length / 2))

/-- The pairs of a bit sequence, from index 0; an unpaired last element is in none (20_memory.md R28). -/
def pairsOf : List Bit → List (Bit × Bit)
  | a :: b :: s => (a, b) :: pairsOf s
  | [_] => []
  | [] => []

end Sys2Proof.Machine
end

