-- ==== Sys2Proof/Machine/Ops.lean ====
section
/-! DEFINITION. The named operations over the state: the reads and writes of the registers, the one response of an
operation, and a failure (the block's only "trap entry"), taken in one place. -/

namespace Sys2Proof.Machine

/-- TAPS: the distances `n - i` of the positions `i` with `P[i] = 1` (10_state.md R13). -/
def tapsOf (n : Nat) (P : List Bit) : List Nat :=
  (List.range n).filterMap fun i => if bitAt P i then some (n - i) else none

/-- The instance's TAPS, a function of `n` and `P` (10_state.md R13; log 13). -/
def State.taps (s : State) : List Nat := tapsOf s.n s.P

/-- Write engine A's trigger vector (10_state.md R14). -/
def State.withT (s : State) (v : List Bit) : State := { s with T := v }

/-- Write engine B's register pair (10_state.md R15). -/
def State.withPair (s : State) (r : List Bit × List Bit) : State := { s with R1 := r.1, R2 := r.2 }

/-- Fix the tester's reference sequence (10_state.md R17). -/
def State.withREF (s : State) (v : List Bit) : State := { s with REF := v }

/-- The requests left after the one that is taken. -/
def State.withPending (s : State) (rs : List Request) : State := { s with pending := rs }

/-- Give one response (30_encoding.md R41). -/
def State.respond (s : State) (r : Response) : State := { s with responses := s.responses ++ [r] }

/-- Complete with a payload: status `OK`, after the effect on the state (30_encoding.md R41). -/
def State.complete (s : State) (p : Payload) : State := s.respond (.ok p)

/-- TAKE A FAILURE (60_exceptions.md R103): the operation stops, it returns no result, and the caller receives the
kind, with its info, in place of one. No register is saved, no mode changes and nothing is latched; there is nothing to
return from (60_exceptions.md R106), so no second operation stands beside it. Log 3. -/
def State.fail (s : State) (kind : FailureKind) (info : FailInfo) : State := s.respond (.failed kind info)

/-- The state a failed sequence command leaves, under either value of SEQ_FAIL_POLICY (92_eei_decisions.md D13):
`before` is the state before the command, `stepped` the state after its expansion up to the first bad element. -/
def afterFailure (policy : SeqFailPolicy) (before stepped : State) : State :=
  match policy with
  | .atomic => before
  | .prefixed => stepped

/-- Zero engine A's register (40_variant_a.md R53). -/
def State.clearA (s : State) : State := s.withT (zeros s.n)

/-- Zero engine B's registers (41_variant_b.md R68). -/
def State.clearB (s : State) : State := s.withPair (zeros s.n, zeros s.n)

/-- What a hardware reset line means, should a realisation have one: `T`, `R1`, `R2` all zero, everything else kept,
no response (70_reset_and_hazards.md R122; log 21). -/
def State.hardReset (s : State) : State := s.clearA.clearB

end Sys2Proof.Machine
end

