-- ==== Sys2Proof/Machine/MaskGenerator.lean ====
section
/-! DEFINITION. The Error-Mask Generator (42_mask_generator.md), a host-side procedure: GENMASKS. -/

namespace Sys2Proof.Machine

/-- The window width of a channel mode (42_mask_generator.md R81). -/
def windowWidth : ChannelMode → Nat
  | .single => 8
  | .dual => 16

/-- Every bit sequence of length `w` with exactly `k` ones, each once, in the order the spec uses for its examples:
increasing lexicographic order of the ascending list of flipped offsets (42_mask_generator.md R82, R86). -/
def masks : Nat → Nat → List (List Bit)
  | w, 0 => [List.replicate w false]
  | 0, _ + 1 => []
  | w + 1, k + 1 => (masks w k).map (true :: ·) ++ (masks w (k + 1)).map (false :: ·)

/-- A list in the order that a draw gives: the head is put, among the arranged rest, where the draw for that many
elements says. Every draw gives a permutation, and every permutation comes from a draw (42_mask_generator.md R86; the
lemmas are in Laws/MaskGenerator.lean). -/
def arrange (draw : Nat → Nat) : List (List Bit) → List (List Bit)
  | [] => []
  | x :: xs => (arrange draw xs).insertIdx (draw xs.length % (xs.length + 1)) x

/-- Position-wise XOR-as-flip: mask bit 1 flips, 0 leaves unchanged (42_mask_generator.md R83). -/
def flipBits : List Bit → List Bit → List Bit
  | b :: v, m :: mask => (if m then invertBit b else b) :: flipBits v mask
  | v, [] => v
  | [], _ :: _ => []

/-- APPLY: the constant prefix unchanged, the last `w` elements flipped by the mask (42_mask_generator.md R83). -/
def applyMask (ref mask : List Bit) (w : Nat) : List Bit :=
  ref.take (ref.length - w) ++ flipBits (ref.drop (ref.length - w)) mask

/-- The candidates for a reference, in the order of a draw (42_mask_generator.md R80). -/
def candidates (draw : Nat → Nat) (ref : List Bit) (k w : Nat) : List (List Bit) :=
  (arrange draw (masks w k)).map fun mask => applyMask ref mask w

/-- The error count as a number, where it is in `0..4` (42_mask_generator.md R84). -/
def errorCount (k : Int) : Option Nat :=
  if 0 ≤ k ∧ k ≤ (Config.maxErrors : Int) then some k.toNat else none

/-- The failure of an error count outside `0..4` (60_exceptions.md R102). -/
def State.failCount (s : State) (k : Int) : State := s.fail .invalidArgument { value := k, index := none }

/-- GENMASKS (42_mask_generator.md R80): the error count is checked first (R84); an improper reference (R88) and one
shorter than the window (R87) are refused. Which of the two refusals is named for a reference that is both is left open
(60_exceptions.md R110(c)); the model names the improper one (DESIGN CHOICE, log 24). -/
def genMasks (ref : List Int) (k : Int) (mode : ChannelMode) (s : State) : Host.Outcome State Fault Refusal :=
  match errorCount k with
  | none => .next (s.failCount k)
  | some count =>
    match checkSeq ref with
    | .improper _ _ => .refused .improperReference
    | .proper bits =>
      let w := windowWidth mode
      if bits.length < w then .refused .shortReference
      else .next (s.complete (.sequences (candidates (Config.genOrder w count) bits count w)))

end Sys2Proof.Machine
end

