-- ==== Sys2Proof/Machine/VariantA.lean ====
section
/-! DEFINITION. Engine A, the single-register engine (40_variant_a.md): A.ADVANCE, A.RUN, A.RESET, A.SIGCHAIN. -/

namespace Sys2Proof.Machine

/-- The feedback of one step, `XORreduce(prev AND P) XOR bit`, from the vector before the rotation
(40_variant_a.md R50). -/
def feedback (n : Nat) (P prev : List Bit) (bit : Bit) : Bit :=
  xor (xorReduce ((List.range n).map fun i => bitAt prev i && bitAt P i)) bit

/-- One step: rotate right by one, then the feedback in the last position (40_variant_a.md R50). -/
def advanceT (n : Nat) (P prev : List Bit) (bit : Bit) : List Bit :=
  vecOf n fun i =>
    if i = n - 1 then feedback n P prev bit
    else if i = 0 then bitAt prev (n - 1)
    else bitAt prev (i - 1)

/-- The trajectory: the vector before, and the vector after each bit (40_variant_a.md R52). -/
def trajectory (n : Nat) (P T : List Bit) : List Bit → List (List Bit)
  | [] => [T]
  | b :: bs => T :: trajectory n P (advanceT n P T b) bs

/-- The vector after the last bit (40_variant_a.md R52). -/
def finalT (n : Nat) (P T : List Bit) : List Bit → List Bit
  | [] => T
  | b :: bs => finalT n P (advanceT n P T b) bs

/-- The signature chain from the all-zero vector: the head bit of each snapshot (40_variant_a.md R56). -/
def chainA (n : Nat) (P : List Bit) (bs : List Bit) : List Bit :=
  (trajectory n P (zeros n) bs).map fun v => bitAt v 0

/-- `T` after the steps for `bs`. -/
def State.stepA (s : State) (bs : List Bit) : State := s.withT (finalT s.n s.P s.T bs)

/-- A.RESET (40_variant_a.md R53). -/
def execAReset (s : State) : Host.Outcome State Fault Refusal := .next (s.clearA.complete .nothing)

/-- A.ADVANCE (40_variant_a.md R50, R51). -/
def execAAdvance (bit : Int) (s : State) : Host.Outcome State Fault Refusal :=
  match bitOf bit with
  | some b =>
    let v := advanceT s.n s.P s.T b
    .next ((s.withT v).complete (.vector v))
  | none => .next (s.fail .invalidInput { value := bit, index := none })

/-- A.RUN (40_variant_a.md R52, R54). -/
def execARun (operand : List Int) (s : State) : Host.Outcome State Fault Refusal :=
  match checkSeq operand with
  | .proper bs => .next ((s.stepA bs).complete (.snapshots (trajectory s.n s.P s.T bs)))
  | .improper before info =>
    .next ((afterFailure Config.seqFailPolicy s (s.stepA before)).fail .invalidInput info)

/-- A.SIGCHAIN (40_variant_a.md R56, R54). -/
def execASigchain (operand : List Int) (s : State) : Host.Outcome State Fault Refusal :=
  match checkSeq operand with
  | .proper bs => .next ((s.clearA.stepA bs).complete (.bits (chainA s.n s.P bs)))
  | .improper before info =>
    .next ((afterFailure Config.seqFailPolicy s (s.clearA.stepA before)).fail .invalidInput info)

end Sys2Proof.Machine
end

