-- ==== Sys2Proof/Machine/VariantB.lean ====
section
/-! DEFINITION. Engine B, the dual-register engine (41_variant_b.md): B.STEP2, B.RESET, B.SIGCHAIN. -/

namespace Sys2Proof.Machine

/-- The value a register step inserts: the input XOR the register at each tap's index `d - 1` (41_variant_b.md R65,
R66). -/
def foldTaps (taps : List Nat) (R : List Bit) (x : Bit) : Bit :=
  xor x (xorReduce (taps.map fun d => bitAt R (d - 1)))

/-- RSTEP (41_variant_b.md R66): the register after the shift. -/
def shiftR (n : Nat) (taps : List Nat) (R : List Bit) (x : Bit) : List Bit :=
  vecOf n fun j => if j = 0 then foldTaps taps R x else bitAt R (j - 1)

/-- RSTEP (41_variant_b.md R66): the bit emitted, the last element before the shift. -/
def emitted (n : Nat) (R : List Bit) : Bit := bitAt R (n - 1)

/-- The register pair after one input pair (41_variant_b.md R67). -/
def shiftPair (n : Nat) (taps : List Nat) (r : List Bit × List Bit) (x : Bit × Bit) : List Bit × List Bit :=
  (shiftR n taps r.1 x.1, shiftR n taps r.2 x.2)

/-- The register pair after a series of input pairs. -/
def finalPair (n : Nat) (taps : List Nat) (r : List Bit × List Bit) : List (Bit × Bit) → List Bit × List Bit
  | [] => r
  | x :: xs => finalPair n taps (shiftPair n taps r x) xs

/-- The bits emitted over a series of input pairs, register 1 first in each pair (41_variant_b.md R70). -/
def emissions (n : Nat) (taps : List Nat) (r : List Bit × List Bit) : List (Bit × Bit) → List Bit
  | [] => []
  | x :: xs => emitted n r.1 :: emitted n r.2 :: emissions n taps (shiftPair n taps r x) xs

/-- The signature chain from all-zero registers (41_variant_b.md R70). -/
def chainB (n : Nat) (P : List Bit) (bs : List Bit) : List Bit :=
  emissions n (tapsOf n P) (zeros n, zeros n) (pairsOf bs)

/-- `R1` and `R2` after the steps for the pairs of `bs`. -/
def State.stepB (s : State) (bs : List Bit) : State :=
  s.withPair (finalPair s.n s.taps (s.R1, s.R2) (pairsOf bs))

/-- B.RESET (41_variant_b.md R68). -/
def execBReset (s : State) : Host.Outcome State Fault Refusal := .next (s.clearB.complete .nothing)

/-- B.STEP2 (41_variant_b.md R67, R69); with both operands bad, `x0` is reported (60_exceptions.md R105). -/
def execBStep2 (x0 x1 : Int) (s : State) : Host.Outcome State Fault Refusal :=
  match bitOf x0, bitOf x1 with
  | some a, some b =>
    .next ((s.withPair (shiftPair s.n s.taps (s.R1, s.R2) (a, b))).complete
      (.pair (emitted s.n s.R1) (emitted s.n s.R2)))
  | none, _ => .next (s.fail .invalidInput { value := x0, index := none })
  | some _, none => .next (s.fail .invalidInput { value := x1, index := none })

/-- B.SIGCHAIN (41_variant_b.md R70, R71, R72). -/
def execBSigchain (operand : List Int) (s : State) : Host.Outcome State Fault Refusal :=
  match checkSeq (consumed operand) with
  | .proper bs => .next ((s.clearB.stepB bs).complete (.bits (chainB s.n s.P bs)))
  | .improper before info =>
    .next ((afterFailure Config.seqFailPolicy s (s.clearB.stepB before)).fail .invalidInput info)

end Sys2Proof.Machine
end

