-- ==== Sys2Proof/Machine/AliasingTester.lean ====
section
/-! DEFINITION. The Aliasing Tester (43_aliasing_tester.md), a host-side procedure: COMPUTE_ALIASES, and the test
session that fixes its reference sequence (10_state.md R17). -/

namespace Sys2Proof.Machine

/-- The signature of a bit sequence with the engine of a channel mode (43_aliasing_tester.md R91). -/
def signature (n : Nat) (P : List Bit) : ChannelMode → List Bit → List Bit
  | .single => chainA n P
  | .dual => chainB n P

/-- What computing that signature leaves in the registers of the mode's engine: reset first, then stepped
(43_aliasing_tester.md R93). -/
def State.afterSignature (s : State) (mode : ChannelMode) (c : List Bit) : State :=
  match mode with
  | .single => s.clearA.stepA c
  | .dual => s.clearB.stepB c

/-- The registers after each candidate's evaluation in turn (43_aliasing_tester.md R93). -/
def State.evaluateAll (s : State) (mode : ChannelMode) : List (List Bit) → State
  | [] => s
  | c :: cs => (s.afterSignature mode c).evaluateAll mode cs

/-- The candidates whose whole signature equals the etalon, in generation order (43_aliasing_tester.md R92, R95). -/
def aliasesAmong (n : Nat) (P : List Bit) (mode : ChannelMode) (etalon : List Bit) (cands : List (List Bit)) :
    List (List Bit) :=
  cands.filter fun c => signature n P mode c = etalon

/-- COMPUTE_ALIASES (43_aliasing_tester.md R90): the error count is checked first (R94); then the reference's
signature, the candidates, and the comparison of each. One response, the list of aliases (log 17). -/
def computeAliases (mode : ChannelMode) (k : Int) (s : State) : Host.Outcome State Fault Refusal :=
  match errorCount k with
  | none => .next (s.failCount k)
  | some count =>
    let w := windowWidth mode
    if s.REF.length < w then .refused .shortReference
    else
      let cands := candidates (Config.genOrder w count) s.REF count w
      .next (((s.afterSignature mode s.REF).evaluateAll mode cands).complete
        (.sequences (aliasesAmong s.n s.P mode (signature s.n s.P mode s.REF) cands)))

/-- Begin a test session: the tester is constructed with its reference sequence (10_state.md R17); an improper one is
refused (42_mask_generator.md R88). No response: it is no operation of the block (log 18). -/
def newSession (ref : List Int) (s : State) : Host.Outcome State Fault Refusal :=
  match checkSeq ref with
  | .proper bits => .next (s.withREF bits)
  | .improper _ _ => .refused .improperReference

end Sys2Proof.Machine
end

