-- ==== Sys2Proof/Machine/Dispatch.lean ====
section
/-! DEFINITION. The meaning of each instruction, one arm per row of the opcode table (30_encoding.md R37). -/

namespace Sys2Proof.Machine

def exec (i : Instr) (s : State) : Host.Outcome State Fault Refusal :=
  match i with
  | .aReset => Sys2Proof.Machine.execAReset s
  | .aAdvance bit => Sys2Proof.Machine.execAAdvance bit s
  | .aRun operand => Sys2Proof.Machine.execARun operand s
  | .aSigchain operand => Sys2Proof.Machine.execASigchain operand s
  | .bReset => Sys2Proof.Machine.execBReset s
  | .bStep2 x0 x1 => Sys2Proof.Machine.execBStep2 x0 x1 s
  | .bSigchain operand => Sys2Proof.Machine.execBSigchain operand s

end Sys2Proof.Machine
end

