-- ==== Sys2Proof/Machine/Requests.lean ====
section
/-! DEFINITION. What each request of the caller does: a command word is decoded and run, a call is run, and the
host-side procedures and the reset line act. -/

namespace Sys2Proof.Machine

/-- A command word with the list beside it: decoded and run, or refused if reserved (30_encoding.md R39, R40, R48). -/
def runWord (c : CmdWord) (operand : List Int) (s : State) : Host.Outcome State Fault Refusal :=
  match decode c operand with
  | .instr i => exec i s
  | .reserved why => .refused (.reservedWord c why)

/-- One request, taken by the machine (20_memory.md R31). -/
def perform (r : Request) (s : State) : Host.Outcome State Fault Refusal :=
  match r with
  | .command c operand => runWord c operand s
  | .call i => exec i s
  | .newSession ref => newSession ref s
  | .genMasks ref k mode => genMasks ref k mode s
  | .computeAliases mode k => computeAliases mode k s
  | .resetLine => .next s.hardReset

/-- Take the next request issued; with none there is no step, for the run has ended (70_reset_and_hazards.md R135;
log 1). -/
def takeNext (s : State) : Host.Outcome State Fault Refusal :=
  match s.pending with
  | [] => .refused .noRequest
  | r :: rest => perform r (s.withPending rest)

/-- Issue a command word before everything else that is pending. -/
def State.issueFirst (s : State) (c : CmdWord) (operand : List Int) : State :=
  s.withPending (.command c operand :: s.pending)

end Sys2Proof.Machine
end

