-- ==== Sys2Proof/Machine/Step.lean ====
section
/-! DEFINITION. One step of the machine: the next request of the caller, taken (20_memory.md R31). -/

namespace Sys2Proof.Machine

/-- One step: operations take effect one at a time, in the order issued (20_memory.md R31). -/
def step (s : State) : Host.Outcome State Fault Refusal := takeNext s

/-- The state with this command word issued next, nothing beside it. A program of this block is the series of commands
its caller issues (70_reset_and_hazards.md R135; log 1). -/
def State.withFetchWord (s : State) (_nbits w : Nat) : State := s.issueFirst (BitVec.ofNat 8 w) []

end Sys2Proof.Machine
end

