-- ==== Sys2Proof/Machine/Assembly.lean ====
section
/-! DEFINITION. The line syntax of 30_encoding.md R43: one command per line, written and read. A line is a list of
characters. Which spaces a reader takes, and that an element of a sequence may be any decimal integer, are the model's
(log 23). -/

namespace Sys2Proof.Machine

/-- A line: a command, and the name its result is bound to, if any; binding has no effect on the block
(30_encoding.md R43). -/
structure Line where
  binding : Option (List Char)
  instr : Instr
deriving DecidableEq, Repr

/-- The mnemonic of an instruction (30_encoding.md R37). -/
def mnemonicText : Instr → List Char
  | .aReset => ['A', '.', 'R', 'E', 'S', 'E', 'T']
  | .aAdvance _ => ['A', '.', 'A', 'D', 'V', 'A', 'N', 'C', 'E']
  | .aRun _ => ['A', '.', 'R', 'U', 'N']
  | .aSigchain _ => ['A', '.', 'S', 'I', 'G', 'C', 'H', 'A', 'I', 'N']
  | .bReset => ['B', '.', 'R', 'E', 'S', 'E', 'T']
  | .bStep2 _ _ => ['B', '.', 'S', 'T', 'E', 'P', '2']
  | .bSigchain _ => ['B', '.', 'S', 'I', 'G', 'C', 'H', 'A', 'I', 'N']

/-- An integer in decimal. -/
def intText (v : Int) : List Char :=
  if v < 0 then '-' :: Nat.toDigits 10 v.natAbs else Nat.toDigits 10 v.natAbs

/-- The elements of a sequence operand, separated by commas. -/
def elementsText : List Int → List Char
  | [] => []
  | [v] => intText v
  | v :: w :: s => intText v ++ ',' :: elementsText (w :: s)

/-- A sequence operand: a bracketed list; the empty list is two brackets. -/
def seqText (s : List Int) : List Char := '[' :: elementsText s ++ [']']

/-- A command's text: the mnemonic, then its operands separated by commas. -/
def instrText (i : Instr) : List Char :=
  match i with
  | .aReset => mnemonicText i
  | .aAdvance bit => mnemonicText i ++ ' ' :: intText bit
  | .aRun s => mnemonicText i ++ ' ' :: seqText s
  | .aSigchain s => mnemonicText i ++ ' ' :: seqText s
  | .bReset => mnemonicText i
  | .bStep2 x0 x1 => mnemonicText i ++ ' ' :: intText x0 ++ ',' :: ' ' :: intText x1
  | .bSigchain s => mnemonicText i ++ ' ' :: seqText s

/-- A line's text: `name = ` before the command where its result is bound. -/
def lineText (l : Line) : List Char :=
  match l.binding with
  | some name => name ++ ' ' :: '=' :: ' ' :: instrText l.instr
  | none => instrText l.instr

/-- Without the spaces at its front. -/
def dropSpaces (cs : List Char) : List Char := cs.dropWhile (· == ' ')

/-- Without the spaces at its two ends. -/
def trim (cs : List Char) : List Char := (dropSpaces (dropSpaces cs).reverse).reverse

/-- The parts of a text before and after the first `c`; none if it does not occur. -/
def splitFirst (c : Char) : List Char → Option (List Char × List Char)
  | [] => none
  | x :: cs => if x = c then some ([], cs) else (splitFirst c cs).map fun p => (x :: p.1, p.2)

/-- The parts of a text between commas: at least one. -/
def splitCommas : List Char → List (List Char)
  | [] => [[]]
  | x :: cs =>
    match splitCommas cs with
    | [] => [[x]]
    | p :: ps => if x = ',' then [] :: p :: ps else (x :: p) :: ps

/-- A decimal digit's value. -/
def digitValue (c : Char) : Option Nat :=
  if '0' ≤ c ∧ c ≤ '9' then some (c.toNat - '0'.toNat) else none

/-- A natural number in decimal, from the value read so far. -/
def readDigits (acc : Nat) : List Char → Option Nat
  | [] => some acc
  | c :: cs => (digitValue c).bind fun d => readDigits (10 * acc + d) cs

/-- A natural number in decimal: at least one digit. -/
def readNat : List Char → Option Nat
  | [] => none
  | c :: cs => readDigits 0 (c :: cs)

/-- An integer in decimal. -/
def readInt : List Char → Option Int
  | '-' :: cs => (readNat cs).map fun v => -(v : Int)
  | cs => (readNat cs).map fun v => (v : Int)

/-- A bit operand: written `0` or `1` (30_encoding.md R43). -/
def readBit : List Char → Option Int
  | ['0'] => some 0
  | ['1'] => some 1
  | _ => none

/-- Every part read, or none. -/
def readAll : List (List Char) → Option (List Int)
  | [] => some []
  | p :: ps => (readInt (trim p)).bind fun v => (readAll ps).map fun s => v :: s

/-- A sequence operand: a bracketed list (30_encoding.md R43). -/
def readSeq : List Char → Option (List Int)
  | '[' :: cs =>
    match splitFirst ']' cs with
    | some (inside, []) => if trim inside = [] then some [] else readAll (splitCommas inside)
    | some (_, _ :: _) => none
    | none => none
  | _ => none

/-- A pair of bit operands separated by a comma. -/
def readPair (cs : List Char) : Option (Int × Int) :=
  match splitFirst ',' cs with
  | some (a, b) => (readBit (trim a)).bind fun x0 => (readBit (trim b)).map fun x1 => (x0, x1)
  | none => none

/-- A command with the text of its operands. -/
def readOperands (mnemonic operands : List Char) : Option Instr :=
  if mnemonic = mnemonicText .aReset then if operands = [] then some .aReset else none
  else if mnemonic = mnemonicText (.aAdvance 0) then (readBit operands).map Instr.aAdvance
  else if mnemonic = mnemonicText (.aRun []) then (readSeq operands).map Instr.aRun
  else if mnemonic = mnemonicText (.aSigchain []) then (readSeq operands).map Instr.aSigchain
  else if mnemonic = mnemonicText .bReset then if operands = [] then some .bReset else none
  else if mnemonic = mnemonicText (.bStep2 0 0) then (readPair operands).map fun p => .bStep2 p.1 p.2
  else if mnemonic = mnemonicText (.bSigchain []) then (readSeq operands).map Instr.bSigchain
  else none

/-- A command: the mnemonic up to the first space, then its operands. -/
def readInstr (cs : List Char) : Option Instr :=
  match splitFirst ' ' cs with
  | some (mnemonic, operands) => readOperands mnemonic (trim operands)
  | none => readOperands cs []

/-- A name that a result can be bound to: not empty, and without a space, a semicolon or an equals sign. -/
def goodName (name : List Char) : Bool :=
  !name.isEmpty && name.all fun c => c ≠ ' ' && c ≠ ';' && c ≠ '='

/-- A line, read: what stands after a semicolon is a comment (30_encoding.md R43). -/
def readLine (cs : List Char) : Option Line :=
  let body := trim (cs.takeWhile (· != ';'))
  match splitFirst '=' body with
  | some (name, rest) =>
    if goodName (trim name) then
      (readInstr (trim rest)).map fun i => { binding := some (trim name), instr := i }
    else none
  | none => (readInstr body).map fun i => { binding := none, instr := i }

end Sys2Proof.Machine
end

