-- ==== Sys2Proof/Machine/Construct.lean ====
section
/-! DEFINITION. CONSTRUCT, the block's power-on (30_encoding.md R46; 70_reset_and_hazards.md R120). -/

namespace Sys2Proof.Machine

/-- `CONSTRUCT n, P`: fix `n` and `P` and zero the registers; refused when `n = 0`, when `P` has not exactly `n`
entries, or when an entry is not 0 or 1 (30_encoding.md R46; 70_reset_and_hazards.md R124; log 22). The instance has
no test session, no request and no response yet. -/
def construct (n : Nat) (P : List Int) : Host.Outcome State Fault Refusal :=
  match checkSeq P with
  | .improper _ _ => .refused .badConstruction
  | .proper bits =>
    if n = 0 ∨ bits.length ≠ n then .refused .badConstruction
    else .next { n := n, P := bits, T := zeros n, R1 := zeros n, R2 := zeros n, REF := [], pending := [], responses := [] }

end Sys2Proof.Machine
end

