-- ==== Sys2Proof/Machine/Flags.lean ====
section
/-! DEFINITION. The block has no flags, condition codes or predicates (10_state.md R19): what an operation reports is
its response. This file holds the response's status and its number. -/

namespace Sys2Proof.Machine

/-- The status of a response: three values, status 3 being never produced (30_encoding.md R41; 93 U20). -/
inductive Status where
  | ok
  | invalidInput
  | invalidArgument
deriving DecidableEq, Repr

/-- The status a response reports (30_encoding.md R41). -/
def Response.status : Response → Status
  | .ok _ => .ok
  | .failed .invalidInput _ => .invalidInput
  | .failed .invalidArgument _ => .invalidArgument

/-- The status codes (60_exceptions.md R104). -/
def Status.code : Status → Nat
  | .ok => 0
  | .invalidInput => 1
  | .invalidArgument => 2

/-- The payload of a response, where it has one (30_encoding.md R41). -/
def Response.payload : Response → Option Payload
  | .ok p => some p
  | .failed _ _ => none

end Sys2Proof.Machine
end

