-- ==== Sys2Proof/Safety.lean ====
section
/-! DEFINITION. The terms claims use: the invariant of the block's state, what an operation answers, a series of calls,
and a run without a failure. -/

namespace Sys2Proof

/-- An instruction whose operands the spec lets complete: bits, proper sequences, and for B.SIGCHAIN a proper consumed
part (60_exceptions.md R101). -/
def Instr.OperandsProper : Instr → Prop
  | .aReset => True
  | .aAdvance bit => IsBit bit
  | .aRun s => Proper s
  | .aSigchain s => Proper s
  | .bReset => True
  | .bStep2 x0 x1 => IsBit x0 ∧ IsBit x1
  | .bSigchain s => ∀ t, t < 2 * (s.length / 2) → ∀ v, s[t]? = some v → IsBit v

/-- The instructions of engine A (40_variant_a.md). -/
def Instr.onEngineA : Instr → Bool
  | .aReset => true
  | .aAdvance _ => true
  | .aRun _ => true
  | .aSigchain _ => true
  | .bReset => false
  | .bStep2 _ _ => false
  | .bSigchain _ => false

end Sys2Proof

namespace Sys2Proof.Machine

/-- The invariant of 10_state.md R24: a width of at least 1, and every vector of that length. That every element is 0
or 1 holds by the type. -/
abbrev State.Inv (s : State) : Prop :=
  1 ≤ s.n ∧ s.P.length = s.n ∧ s.T.length = s.n ∧ s.R1.length = s.n ∧ s.R2.length = s.n

/-- Bits as the integers of an operand. -/
def intsOf (bs : List Bit) : List Int := bs.map bitInt

/-- The command that computes the signature of a channel mode (43_aliasing_tester.md R91). -/
def signatureCommand (mode : ChannelMode) (c : List Bit) : Instr :=
  match mode with
  | .single => .aSigchain (intsOf c)
  | .dual => .bSigchain (intsOf c)

/-- The instruction completes, with this payload as its one response. -/
def Answers (i : Instr) (s : State) (p : Payload) : Prop :=
  ∃ t, exec i s = .next t ∧ t.responses = s.responses ++ [.ok p]

/-- Calls made one after another, stopping where one has no next state. -/
def execAll : List Instr → State → Host.Outcome State Fault Refusal
  | [], s => .next s
  | i :: is, s =>
    match exec i s with
    | .next t => execAll is t
    | .fault r => .fault r
    | .refused r => .refused r

/-- Whether an odd number of the indices below `n` have the property. -/
def oddCount (n : Nat) (f : Nat → Bool) : Bit := decide ((List.range n).countP f % 2 = 1)

/-- No operation of the run so far has failed: the runs about which claims are made (60_exceptions.md R106). -/
abbrev State.NoFailure (s : State) : Prop := ∀ r ∈ s.responses, r.status = .ok

/-- The number of positions at which two sequences differ, counted over the first one's indices. -/
def differences (v w : List Bit) : Nat := (List.range v.length).countP fun j => bitAt v j != bitAt w j

end Sys2Proof.Machine
end

