-- ==== Sys2Proof/Certificates/Slice0/Obligations.lean ====
section
/-! DEFINITION. The statements for the provers. `intsOf bs` are the integers of the bits `bs`, so a statement over all
`bs` is one over all proper bit sequences (00_scope.md R9). -/

section
open Sys2Proof Sys2Proof.Machine

/-! ## The command word -/

/-- 30_encoding.md R37: each row's match and mask select the row's command with its data bits, and exactly 11 of the 256
words are defined. -/
def Obligations.EachRowOfTheTableSelectsItsCommand : Prop :=
  ∀ (c : CmdWord) (operand : List Int),
    (c &&& 0xFF#8 = 0x10#8 → decode c operand = .instr .aReset) ∧
    (c &&& 0xFE#8 = 0x20#8 → decode c operand = .instr (.aAdvance (bitInt (c.getLsbD 0)))) ∧
    (c &&& 0xFF#8 = 0x30#8 → decode c operand = .instr (.aRun operand)) ∧
    (c &&& 0xFF#8 = 0x40#8 → decode c operand = .instr (.aSigchain operand)) ∧
    (c &&& 0xFF#8 = 0x90#8 → decode c operand = .instr .bReset) ∧
    (c &&& 0xFC#8 = 0xA0#8 →
      decode c operand = .instr (.bStep2 (bitInt (c.getLsbD 0)) (bitInt (c.getLsbD 1)))) ∧
    (c &&& 0xFF#8 = 0xC0#8 → decode c operand = .instr (.bSigchain operand)) ∧
    ((∃ i, decode c operand = .instr i) ↔
      c.toNat ∈ [0x10, 0x20, 0x21, 0x30, 0x40, 0x90, 0xA0, 0xA1, 0xA2, 0xA3, 0xC0])

/-- Words written out bit by bit from the patterns of 30_encoding.md R37, one for each row and both data bits of
B.STEP2. -/
def Obligations.WordsWrittenBitByBitDecode : Prop :=
  decode 0b00010000#8 [] = .instr .aReset ∧
  decode 0b00100001#8 [] = .instr (.aAdvance 1) ∧
  decode 0b00110000#8 [1, 0] = .instr (.aRun [1, 0]) ∧
  decode 0b01000000#8 [1, 0] = .instr (.aSigchain [1, 0]) ∧
  decode 0b10010000#8 [] = .instr .bReset ∧
  decode 0b10100001#8 [] = .instr (.bStep2 1 0) ∧
  decode 0b10100010#8 [] = .instr (.bStep2 0 1) ∧
  decode 0b11000000#8 [1, 0] = .instr (.bSigchain [1, 0])

/-- 30_encoding.md R49 (which marks the round trips as derived from R37 and R48): decoding an encoded instruction gives it
back, for every instruction that has a word; encoding a decoded word gives the word back; a call whose operand is no bit
has no word; and the words are those of the rule. -/
def Obligations.DecodeAndEncodeAgree : Prop :=
  (∀ i : Instr, i.wellFormed = true → decode (encode i).1 (encode i).2 = .instr i) ∧
  (∀ (c : CmdWord) (operand : List Int) (i : Instr),
    decode c operand = .instr i → (encode i).1 = c ∧ i.wellFormed = true) ∧
  (∀ b : Bit, (encode (.aAdvance (bitInt b))).1 = 0x20#8 + BitVec.ofNat 8 b.toNat) ∧
  (∀ x0 x1 : Bit, (encode (.bStep2 (bitInt x0) (bitInt x1))).1 =
    0xA0#8 + 2#8 * BitVec.ofNat 8 x1.toNat + BitVec.ofNat 8 x0.toNat) ∧
  (encode .aReset).1 = 0x10#8 ∧ (encode .bReset).1 = 0x90#8 ∧
  (∀ s : List Int, (encode (.aRun s)).1 = 0x30#8 ∧ (encode (.aSigchain s)).1 = 0x40#8 ∧
    (encode (.bSigchain s)).1 = 0xC0#8)

/-! ## A step -/

/-- A step runs the decoded instruction (20_memory.md R31, R26; 30_encoding.md R39, R48): the request at the front is
taken, and the rest stay pending. A call at the operation level is run as it stands (30_encoding.md R35). -/
def Obligations.StepRunsTheIssuedCommand : Prop :=
  ∀ (s : State) (rest : List Request) (i : Instr),
    (∀ (c : CmdWord) (operand : List Int),
      s.pending = .command c operand :: rest → decode c operand = .instr i →
        step s = exec i { s with pending := rest }) ∧
    (s.pending = .call i :: rest → step s = exec i { s with pending := rest })

/-- 30_encoding.md R40: each of the 245 other words is refused, and no defined word is; the 245 are the words with a
reserved `op`, with `z` not 00, with `u = 1` and `op = 011`, or with a data bit where R36 says it must be 0 (`d1` outside
B.STEP2, `d0` outside the two STEP commands). -/
def Obligations.ReservedWordsAndOnlyTheyAreRefused : Prop :=
  ∀ (s : State) (rest : List Request) (c : CmdWord) (operand : List Int),
    s.pending = .command c operand :: rest →
      (c.toNat ∉ [0x10, 0x20, 0x21, 0x30, 0x40, 0x90, 0xA0, 0xA1, 0xA2, 0xA3, 0xC0] →
        ∃ why, step s = .refused (.reservedWord c why)) ∧
      (c.toNat ∈ [0x10, 0x20, 0x21, 0x30, 0x40, 0x90, 0xA0, 0xA1, 0xA2, 0xA3, 0xC0] → ∃ t, step s = .next t) ∧
      (c.toNat ∉ [0x10, 0x20, 0x21, 0x30, 0x40, 0x90, 0xA0, 0xA1, 0xA2, 0xA3, 0xC0] ↔
        c.extractLsb' 4 3 ∈ [0b000#3, 0b101#3, 0b110#3, 0b111#3] ∨ c.extractLsb' 2 2 ≠ 0b00#2 ∨
        (c.getLsbD 7 = true ∧ c.extractLsb' 4 3 = 0b011#3) ∨
        (c.getLsbD 1 = true ∧ ¬ (c.getLsbD 7 = true ∧ c.extractLsb' 4 3 = 0b010#3)) ∨
        (c.getLsbD 0 = true ∧ c.extractLsb' 4 3 ≠ 0b010#3))

/-- 10_state.md R24: the lengths agree with `n` after every step from a state in which they do, and `P` and TAPS equal
their construction values. -/
def Obligations.StepKeepsTheInvariant : Prop :=
  ∀ s t : State, s.Inv → step s = .next t → t.Inv ∧ t.n = s.n ∧ t.P = s.P ∧ t.taps = s.taps

/-- The invariant holds of the reset state, which is what CONSTRUCT makes of the source's worked instance
(00_scope.md R4). That this instance is the reset state is the model's choice (log 4). -/
def Obligations.ResetIsAConstructedMachine : Prop :=
  State.reset.Inv ∧ construct 8 [1, 0, 1, 0, 0, 1, 1, 0] = .next State.reset

/-- Every command completes with exactly one response, from every state and on every operand; it is `OK` exactly when
the operands are proper, and InvalidInput otherwise (30_encoding.md R41; 60_exceptions.md R101). The two registers of
configuration, REF and the requests still pending are unchanged. -/
def Obligations.EveryCommandCompletesWithOneResponse : Prop :=
  ∀ (i : Instr) (s : State), ∃ t r, exec i s = .next t ∧ t.responses = s.responses ++ [r] ∧
    (i.OperandsProper → r.status = .ok) ∧ (¬ i.OperandsProper → r.status = .invalidInput) ∧
    t.n = s.n ∧ t.P = s.P ∧ t.REF = s.REF ∧ t.pending = s.pending

/-- A response once given is never changed, and a step gives at most one (10_state.md R22; 30_encoding.md R41). -/
def Obligations.ResponsesAreNeverChanged : Prop :=
  ∀ s t : State, step s = .next t → ∃ l, t.responses = s.responses ++ l ∧ l.length ≤ 1

/-- A failure is not latched (60_exceptions.md R106): what a command does to the registers, and what it answers, does
not depend on the responses given before, failures among them. -/
def Obligations.NothingDependsOnEarlierResponses : Prop :=
  ∀ (i : Instr) (s : State) (l : List Response), ∃ t r, exec i s = .next t ∧
    t.responses = s.responses ++ [r] ∧
    exec i { s with responses := l } = .next { t with responses := l ++ [r] }

/-- `InvalidInput` cannot arise from a decoded primitive command (30_encoding.md R38), nor from a sequence command whose
operand is proper: such a step keeps a run free of failures. -/
def Obligations.CommandWordsWithProperOperandsNeverFail : Prop :=
  ∀ (s t : State) (c : CmdWord) (operand : List Int) (rest : List Request),
    s.pending = .command c operand :: rest → Proper operand → s.NoFailure → step s = .next t → t.NoFailure

/-! ## The two engines together -/

/-- 10_state.md R16, marked as derived there: no engine A operation reads or writes `R1` or `R2`, and no engine B operation reads or writes
`T`. -/
def Obligations.TheEnginesAreDisjoint : Prop :=
  ∀ (i : Instr) (s : State), ∃ t, exec i s = .next t ∧
    (i.onEngineA = true → t.R1 = s.R1 ∧ t.R2 = s.R2 ∧
      ∀ r1 r2, exec i { s with R1 := r1, R2 := r2 } = .next { t with R1 := r1, R2 := r2 }) ∧
    (i.onEngineA = false → t.T = s.T ∧ ∀ v, exec i { s with T := v } = .next { t with T := v })

/-- Operations of the two engines can be swapped: the registers end the same, and each gives the same response
(10_state.md R16; 70_reset_and_hazards.md R121). -/
def Obligations.OperationsOfTheTwoEnginesCommute : Prop :=
  ∀ (i j : Instr) (s : State), i.onEngineA = true → j.onEngineA = false →
    ∃ t u ri rj, execAll [i, j] s = .next t ∧ execAll [j, i] s = .next u ∧
      t.responses = s.responses ++ [ri, rj] ∧ u.responses = s.responses ++ [rj, ri] ∧
      t.T = u.T ∧ t.R1 = u.R1 ∧ t.R2 = u.R2 ∧ t.n = u.n ∧ t.P = u.P

/-- 10_state.md R13: the members of TAPS are the distances `n - i` of the set positions, each in `1..n`, none twice, and
there are none exactly when `P` is all zero; and no step changes them. -/
def Obligations.TapsAreTheDistancesOfTheSetPositions : Prop :=
  ∀ s : State, s.Inv →
    (∀ d, d ∈ s.taps ↔ ∃ i, i < s.n ∧ s.P[i]? = some true ∧ d = s.n - i) ∧
    (∀ d ∈ s.taps, 1 ≤ d ∧ d ≤ s.n) ∧ s.taps.Nodup ∧ (s.taps = [] ↔ s.P = List.replicate s.n false) ∧
    ∀ t, step s = .next t → t.taps = s.taps

/-! ## Engine A -/

/-- 40_variant_a.md R53: every element of `T` becomes 0, nothing else of the machine changes, no value is returned, and
a second reset changes nothing more. -/
def Obligations.AResetZeroesTheTriggerVector : Prop :=
  ∀ s : State, ∃ t, exec .aReset s = .next t ∧
    t = { s with T := List.replicate s.n false, responses := s.responses ++ [.ok .nothing] } ∧
    exec .aReset t = .next { t with responses := t.responses ++ [.ok .nothing] }

/-- 40_variant_a.md R50, in the source's words: rotate right by one position, the last element wrapping to the front,
then recompute the last element as the XOR-reduction of `prev AND P`, XOR the bit. The new vector is the response, and
nothing else changes. -/
def Obligations.AAdvanceRotatesAndFeedsBack : Prop :=
  ∀ (s : State) (b : Bit), s.Inv →
    let fb := xor (oddCount s.n fun i => bitAt s.T i && bitAt s.P i) b
    let new := (s.T.rotateRight 1).set (s.n - 1) fb
    exec (.aAdvance (bitInt b)) s =
      .next { s with T := new, responses := s.responses ++ [.ok (.vector new)] }

/-- 40_variant_a.md R51: A.ADVANCE fails with InvalidInput exactly when its operand is not 0 or 1, and a failed one
changes nothing and returns nothing; no command word decodes to such a call. -/
def Obligations.AAdvanceFailsExactlyOnNonBits : Prop :=
  ∀ (s : State) (v : Int),
    (¬ IsBit v → ∃ info, exec (.aAdvance v) s =
      .next { s with responses := s.responses ++ [.failed .invalidInput info] }) ∧
    (IsBit v → ∃ new, Answers (.aAdvance v) s (.vector new)) ∧
    (∀ c operand, decode c operand = .instr (.aAdvance v) → IsBit v)

/-- 40_variant_a.md R52: from the current vector, not reset, one more snapshot than input bits, the first being the
vector before the call and each later one what A.ADVANCE makes of the one before; `T` ends as the last. -/
def Obligations.ARunReturnsTheTrajectory : Prop :=
  ∀ (s : State) (bs : List Bit), ∃ vs : List (List Bit),
    exec (.aRun (intsOf bs)) s =
      .next { s with T := vs.getLastD [], responses := s.responses ++ [.ok (.snapshots vs)] } ∧
    vs.length = bs.length + 1 ∧ vs.head? = some s.T ∧
    ∀ j b v, bs[j]? = some b → vs[j]? = some v →
      ∃ w, vs[j + 1]? = some w ∧ exec (.aAdvance (bitInt b)) { s with T := v } =
        .next { s with T := w, responses := s.responses ++ [.ok (.vector w)] }

/-- 40_variant_a.md R52, corner cases, marked as derived there: two runs one after the other visit the snapshots of one run over both inputs. -/
def Obligations.ARunsComposeOverConcatenation : Prop :=
  ∀ (s : State) (bs cs : List Bit), ∃ t vs ws u,
    exec (.aRun (intsOf bs)) s = .next t ∧ t.responses = s.responses ++ [.ok (.snapshots vs)] ∧
    exec (.aRun (intsOf cs)) t = .next u ∧ u.responses = t.responses ++ [.ok (.snapshots ws)] ∧
    exec (.aRun (intsOf bs ++ intsOf cs)) s =
      .next { s with T := u.T, responses := s.responses ++ [.ok (.snapshots (vs ++ ws.tail))] }

/-- 30_encoding.md R44, engine A: A.RUN is the series of its A.ADVANCEs, and A.SIGCHAIN is A.RESET and A.RUN with the
head of each snapshot reported. -/
def Obligations.EngineASequencesAreTheirExpansions : Prop :=
  ∀ (s : State) (bs : List Bit),
    (∃ t vs, execAll ((intsOf bs).map Instr.aAdvance) s = .next t ∧
      t.responses = s.responses ++ vs.map (fun v => Response.ok (.vector v)) ∧
      exec (.aRun (intsOf bs)) s =
        .next { t with responses := s.responses ++ [.ok (.snapshots (s.T :: vs))] }) ∧
    (∃ t vs, execAll [.aReset, .aRun (intsOf bs)] s = .next t ∧
      t.responses = s.responses ++ [.ok .nothing, .ok (.snapshots vs)] ∧
      exec (.aSigchain (intsOf bs)) s =
        .next { t with responses := s.responses ++ [.ok (.bits (vs.map fun v => bitAt v 0))] })

/-- 40_variant_a.md R54: an improper operand fails A.RUN and A.SIGCHAIN as a whole, without a result; `T` is unchanged
under `atomic`, and under `prefix` it is what the command would have left for the elements before the first bad one.
Nothing else changes. It holds for each value of SEQ_FAIL_POLICY. -/
def Obligations.EngineASequenceFailureFollowsThePolicy : Prop :=
  ∀ (s : State) (good : List Bit) (bad : Int) (rest : List Int), ¬ IsBit bad →
    ∀ make, (make = Instr.aRun ∨ make = Instr.aSigchain) →
      ∃ u info, exec (make (intsOf good)) s = .next u ∧
        (Config.seqFailPolicy = .atomic → exec (make (intsOf good ++ bad :: rest)) s =
          .next { s with responses := s.responses ++ [.failed .invalidInput info] }) ∧
        (Config.seqFailPolicy = .prefixed → exec (make (intsOf good ++ bad :: rest)) s =
          .next { s with T := u.T, responses := s.responses ++ [.failed .invalidInput info] })

/-- 40_variant_a.md R55, marked as derived there: from the all-zero vector the values `f j` written into the last position satisfy the linear
recurrence, and the snapshots hold them as the rule says. -/
def Obligations.EngineAComputesItsRecurrence : Prop :=
  ∀ (s : State) (bs : List Bit), s.Inv → s.T = List.replicate s.n false →
    ∃ (vs : List (List Bit)) (f : Int → Bit), Answers (.aRun (intsOf bs)) s (.snapshots vs) ∧
      (∀ j : Int, j ≤ 0 → f j = false) ∧
      (∀ j : Nat, j < bs.length → f (j + 1) =
        xor (bitAt bs j) (xor (bitAt s.P (s.n - 1) && f j)
          (oddCount (s.n - 1) fun i => bitAt s.P i && f ((j : Int) - 1 - i)))) ∧
      (∀ j : Nat, j ≤ bs.length → bitAt (vs.getD j []) (s.n - 1) = f j ∧
        ∀ i : Nat, i + 2 ≤ s.n → bitAt (vs.getD j []) i = f ((j : Int) - 1 - i))

/-- 40_variant_a.md R55, marked as derived there: the map from the input to the snapshots is linear over XOR. -/
def Obligations.EngineAIsLinear : Prop :=
  ∀ (s : State) (bs cs : List Bit), s.Inv → s.T = List.replicate s.n false → bs.length = cs.length →
    ∃ vs ws, Answers (.aRun (intsOf bs)) s (.snapshots vs) ∧ Answers (.aRun (intsOf cs)) s (.snapshots ws) ∧
      Answers (.aRun (intsOf (List.zipWith xor bs cs))) s (.snapshots (List.zipWith (List.zipWith xor) vs ws))

/-- 40_variant_a.md R57, marked as derived there: for `n ≥ 2` chain element 0 is 0 and element `j + 1` is the value written by step `j`; for
`n = 1` element `j` is itself that value. -/
def Obligations.ChainAShowsTheWrittenValues : Prop :=
  ∀ (s : State) (bs : List Bit), s.Inv → ∃ vs c,
    Answers (.aRun (intsOf bs)) { s with T := List.replicate s.n false } (.snapshots vs) ∧
    Answers (.aSigchain (intsOf bs)) s (.bits c) ∧ c.length = bs.length + 1 ∧ bitAt c 0 = false ∧
    (2 ≤ s.n → ∀ j, j < bs.length → bitAt c (j + 1) = bitAt (vs.getD j []) (s.n - 1)) ∧
    (s.n = 1 → ∀ j, j ≤ bs.length → bitAt c j = bitAt (vs.getD j []) 0)

/-- 40_variant_a.md R57(a), (c), marked as derived there: for `n ≥ 2` two operands of one length have equal chains exactly when they agree on all
elements but the last; for `n = 1` exactly when they are equal. -/
def Obligations.ChainAIsBlindToTheLastBitOnly : Prop :=
  ∀ (s : State) (bs cs : List Bit), s.Inv → bs.length = cs.length → ∃ u v,
    Answers (.aSigchain (intsOf bs)) s (.bits u) ∧ Answers (.aSigchain (intsOf cs)) s (.bits v) ∧
    (2 ≤ s.n → (u = v ↔ bs.dropLast = cs.dropLast)) ∧ (s.n = 1 → (u = v ↔ bs = cs))

/-- 40_variant_a.md R58, 41_variant_b.md R75. Determinism: a signature, and what computing it leaves in the registers, is
the same whatever the registers held. Length laws: `m + 1` snapshots, the first being the vector before the call; `m + 1`
head bits; `2 * floor(m/2)` emitted bits. Reset law: after A.RESET `T` is all zero, and the chain of the empty input is
`[0]`. -/
def Obligations.SignaturesObeyTheThreeLaws : Prop :=
  ∀ (s s' : State) (bs : List Bit), s.n = s'.n → s.P = s'.P →
    (∃ c v, exec (.aSigchain (intsOf bs)) s =
        .next { s with T := v, responses := s.responses ++ [.ok (.bits c)] } ∧
      exec (.aSigchain (intsOf bs)) s' =
        .next { s' with T := v, responses := s'.responses ++ [.ok (.bits c)] } ∧
      c.length = bs.length + 1 ∧ (bs = [] → c = [false])) ∧
    (∃ c v w, exec (.bSigchain (intsOf bs)) s =
        .next { s with R1 := v, R2 := w, responses := s.responses ++ [.ok (.bits c)] } ∧
      exec (.bSigchain (intsOf bs)) s' =
        .next { s' with R1 := v, R2 := w, responses := s'.responses ++ [.ok (.bits c)] } ∧
      c.length = 2 * (bs.length / 2)) ∧
    (∃ vs, Answers (.aRun (intsOf bs)) s (.snapshots vs) ∧ vs.length = bs.length + 1 ∧ vs.head? = some s.T) ∧
    (∃ t, exec .aReset s = .next t ∧ t.T = List.replicate s.n false)

/-! ## Engine B -/

/-- 41_variant_b.md R68: every element of both registers becomes 0, nothing else changes, no value is returned, and a
second reset changes nothing more. -/
def Obligations.BResetZeroesTheRegisterPair : Prop :=
  ∀ s : State, ∃ t, exec .bReset s = .next t ∧
    t = { s with R1 := List.replicate s.n false, R2 := List.replicate s.n false,
                 responses := s.responses ++ [.ok .nothing] } ∧
    exec .bReset t = .next { t with responses := t.responses ++ [.ok .nothing] }

/-- 41_variant_b.md R65, R66, R67: each register emits its last element, then drops it and inserts at the front its input
XOR the elements `R[n-1-i]` of the positions `i` with `P[i] = 1`; register 1 comes first in the pair, and nothing else
changes. -/
def Obligations.BStep2ShiftsBothRegisters : Prop :=
  ∀ (s : State) (x0 x1 : Bit), s.Inv →
    let inserted := fun (R : List Bit) (x : Bit) =>
      xor x (oddCount s.n fun i => bitAt s.P i && bitAt R (s.n - 1 - i))
    exec (.bStep2 (bitInt x0) (bitInt x1)) s =
      .next { s with R1 := inserted s.R1 x0 :: s.R1.dropLast, R2 := inserted s.R2 x1 :: s.R2.dropLast,
                     responses := s.responses ++ [.ok (.pair (s.R1.getLastD false) (s.R2.getLastD false))] }

/-- 41_variant_b.md R69: B.STEP2 fails with InvalidInput when either operand is not 0 or 1, and then changes nothing; no
command word decodes to such a call. -/
def Obligations.BStep2FailsExactlyOnNonBits : Prop :=
  ∀ (s : State) (x0 x1 : Int),
    (¬ (IsBit x0 ∧ IsBit x1) → ∃ info, exec (.bStep2 x0 x1) s =
      .next { s with responses := s.responses ++ [.failed .invalidInput info] }) ∧
    (IsBit x0 ∧ IsBit x1 → ∃ o1 o2, Answers (.bStep2 x0 x1) s (.pair o1 o2)) ∧
    (∀ c operand, decode c operand = .instr (.bStep2 x0 x1) → IsBit x0 ∧ IsBit x1)

/-- 30_encoding.md R44, engine B: B.SIGCHAIN is B.RESET and one B.STEP2 for each pair from index 0, with the emitted bits
interleaved, register 1 first. -/
def Obligations.EngineBSequenceIsItsExpansion : Prop :=
  ∀ (s : State) (bs : List Bit), ∃ (t : State) (os : List (Bit × Bit)),
    execAll (.bReset :: (List.range (bs.length / 2)).map fun i =>
        Instr.bStep2 (bitInt (bitAt bs (2 * i))) (bitInt (bitAt bs (2 * i + 1)))) s = .next t ∧
    t.responses = s.responses ++ Response.ok .nothing :: os.map (fun o => Response.ok (.pair o.1 o.2)) ∧
    exec (.bSigchain (intsOf bs)) s =
      .next { t with responses := s.responses ++ [.ok (.bits (os.flatMap fun o => [o.1, o.2]))] }

/-- 41_variant_b.md R72: an element after an operand of even length changes neither the result nor the final state,
whatever the element is. -/
def Obligations.BSigchainIgnoresAnOddTail : Prop :=
  ∀ (s : State) (operand : List Int) (e : Int), operand.length % 2 = 0 →
    exec (.bSigchain (operand ++ [e])) s = exec (.bSigchain operand) s

/-- 41_variant_b.md R71: a bad element among those consumed fails B.SIGCHAIN as a whole, without a result; `R1` and `R2`
are unchanged under `atomic`, and under `prefix` they are what the command would have left for the elements before the
first bad one. Nothing else changes. It holds for each value of SEQ_FAIL_POLICY. -/
def Obligations.EngineBSequenceFailureFollowsThePolicy : Prop :=
  ∀ (s : State) (good : List Bit) (bad : Int) (rest : List Int), ¬ IsBit bad →
    good.length < 2 * ((good.length + 1 + rest.length) / 2) →
      ∃ u info, exec (.bSigchain (intsOf good)) s = .next u ∧
        (Config.seqFailPolicy = .atomic → exec (.bSigchain (intsOf good ++ bad :: rest)) s =
          .next { s with responses := s.responses ++ [.failed .invalidInput info] }) ∧
        (Config.seqFailPolicy = .prefixed → exec (.bSigchain (intsOf good ++ bad :: rest)) s =
          .next { s with R1 := u.R1, R2 := u.R2, responses := s.responses ++ [.failed .invalidInput info] })

/-- 41_variant_b.md R73, marked as derived there: for each register, the values `v j` inserted satisfy the linear recurrence on the register's own
inputs, the bit emitted at step `j` is `v (j - n)`, and after the last step the register holds them newest first. -/
def Obligations.EngineBComputesItsRecurrence : Prop :=
  ∀ (s : State) (bs : List Bit), s.Inv →
    ∃ (t : State) (c : List Bit) (v : Nat → Int → Bit), exec (.bSigchain (intsOf bs)) s = .next t ∧
      t.responses = s.responses ++ [.ok (.bits c)] ∧ c.length = 2 * (bs.length / 2) ∧
      ∀ r : Nat, r < 2 →
        (∀ j : Int, j < 0 → v r j = false) ∧
        (∀ j : Nat, j < bs.length / 2 → v r j =
          xor (bitAt bs (2 * j + r))
            (oddCount s.n fun i => bitAt s.P i && v r ((j : Int) - ((s.n : Int) - i)))) ∧
        (∀ j : Nat, j < bs.length / 2 → bitAt c (2 * j + r) = v r ((j : Int) - s.n)) ∧
        (∀ j : Nat, j < s.n →
          bitAt (if r = 0 then t.R1 else t.R2) j = v r ((bs.length / 2 : Nat) - 1 - (j : Int)))

/-- 41_variant_b.md R73(d), marked as derived there: the map from the operand to the result is linear over XOR. -/
def Obligations.EngineBIsLinear : Prop :=
  ∀ (s : State) (bs cs : List Bit), s.Inv → bs.length = cs.length →
    ∃ u v, Answers (.bSigchain (intsOf bs)) s (.bits u) ∧ Answers (.bSigchain (intsOf cs)) s (.bits v) ∧
      Answers (.bSigchain (intsOf (List.zipWith xor bs cs))) s (.bits (List.zipWith xor u v))

/-- 41_variant_b.md R73(a), (b), (c), marked as derived there: the first `2n` elements of the result are 0, and two operands of one length have
equal results exactly when they agree on the consumed elements other than the last `2n`. -/
def Obligations.ChainBIsBlindToTheTail : Prop :=
  ∀ (s : State) (bs cs : List Bit), s.Inv → bs.length = cs.length → ∃ u v,
    Answers (.bSigchain (intsOf bs)) s (.bits u) ∧ Answers (.bSigchain (intsOf cs)) s (.bits v) ∧
    (∀ j, j < 2 * s.n → bitAt u j = false) ∧
    (u = v ↔ bs.take (2 * (bs.length / 2) - 2 * s.n) = cs.take (2 * (bs.length / 2) - 2 * s.n))

/-! ## Construction, reset, the interface -/

/-- 30_encoding.md R46, 70_reset_and_hazards.md R120: CONSTRUCT makes an instance exactly when `n ≥ 1` and `P` has `n`
entries, each 0 or 1, with `n` and `P` as given and the registers all zero; otherwise it is refused. That a mask of another
length is refused is the model's reading of R124 (log 22). -/
def Obligations.ConstructMakesAZeroedMachine : Prop :=
  ∀ (n : Nat) (P : List Int),
    ((1 ≤ n ∧ P.length = n ∧ Proper P) → ∃ s, construct n P = .next s ∧ s.Inv ∧ s.n = n ∧ intsOf s.P = P ∧
      s.T = List.replicate n false ∧ s.R1 = List.replicate n false ∧ s.R2 = List.replicate n false) ∧
    (¬ (1 ≤ n ∧ P.length = n ∧ Proper P) → construct n P = .refused .badConstruction)

/-- 70_reset_and_hazards.md R122: a hardware reset line leaves `T`, `R1` and `R2` all zero, and the configuration and
everything else as they were. That the line is a request, keeps what is pending and gives no response is the model's
(log 21). -/
def Obligations.ResetLineZeroesTheRegisters : Prop :=
  ∀ (s : State) (rest : List Request), s.pending = .resetLine :: rest →
    step s = .next { s with T := List.replicate s.n false, R1 := List.replicate s.n false,
                            R2 := List.replicate s.n false, pending := rest }

/-- 60_exceptions.md R104: the status codes, 3 being unused; a failed response has no payload (30_encoding.md R41). -/
def Obligations.StatusCodesAreTheSpecs : Prop :=
  ∀ (p : Payload) (info : FailInfo),
    (Response.ok p).status.code = 0 ∧ (Response.failed .invalidInput info).status.code = 1 ∧
    (Response.failed .invalidArgument info).status.code = 2 ∧
    (∀ r : Response, r.status.code ≠ 3) ∧
    (Response.ok p).payload = some p ∧ ∀ kind, (Response.failed kind info).payload = none

/-- 20_memory.md R27(c): in a packed word bit `i` is element `i`, and `[1,0,1,0,0,1,1,0]` packs to `0x65`. -/
def Obligations.PackedBitIsElement : Prop :=
  (∀ (v : List Bit) (i : Nat), (pack v).testBit i = bitAt v i) ∧
    pack [true, false, true, false, false, true, true, false] = 0x65

/-- 30_encoding.md R43: the text of a line is read back as the line, for bit operands and proper sequences. The texts are
the model's printer's (log 23). -/
def Obligations.LinesAreReadBack : Prop :=
  ∀ l : Line, l.instr.wellFormed = true → l.instr.OperandsProper →
    (∀ operand, l.instr = .bSigchain operand → Proper operand) →
    (∀ name, l.binding = some name → goodName name = true) → readLine (lineText l) = some l

/-! ## The host-side procedures -/

/-- 42_mask_generator.md R82, R85: exactly `C(w, k)` sequences, no two equal, and they are the sequences of the
reference's length that differ from it in exactly `k` positions, all in the last `w`. Nothing but the response changes.
It holds for every GEN_ORDER. -/
def Obligations.GenMasksGivesEveryCandidateOnce : Prop :=
  ∀ (s : State) (ref : List Bit) (k : Nat) (mode : ChannelMode), k ≤ 4 → windowWidth mode ≤ ref.length →
    ∃ l, genMasks (intsOf ref) k mode s =
        .next { s with responses := s.responses ++ [.ok (.sequences l)] } ∧
      l.length = (windowWidth mode).choose k ∧ l.Nodup ∧
      ∀ x, x ∈ l ↔ x.length = ref.length ∧
        x.take (ref.length - windowWidth mode) = ref.take (ref.length - windowWidth mode) ∧ differences x ref = k

/-- 42_mask_generator.md R84, 43_aliasing_tester.md R94: both procedures fail with InvalidArgument exactly when `k` is
outside `0..4`: then whatever else is wrong, and no register has changed; the values 0 to 4 succeed (with a reference that
the procedure takes: R87, R88). -/
def Obligations.ErrorCountsOutsideTheRangeFail : Prop :=
  ∀ (s : State) (ref : List Int) (k : Int) (mode : ChannelMode),
    ((k < 0 ∨ 4 < k) → ∃ info,
      genMasks ref k mode s = .next { s with responses := s.responses ++ [.failed .invalidArgument info] } ∧
      computeAliases mode k s = .next { s with responses := s.responses ++ [.failed .invalidArgument info] }) ∧
    ((0 ≤ k ∧ k ≤ 4) →
      (Proper ref → windowWidth mode ≤ ref.length → ∃ l,
        genMasks ref k mode s = .next { s with responses := s.responses ++ [.ok (.sequences l)] }) ∧
      (windowWidth mode ≤ s.REF.length → ∃ t l,
        computeAliases mode k s = .next t ∧ t.responses = s.responses ++ [.ok (.sequences l)]))

/-- 42_mask_generator.md R87, R88: with a legal `k`, a reference shorter than the window, or with an element that is not
a bit, is refused. The refusals' names, and that a reference which is both is refused as improper, are the model's
(log 24). -/
def Obligations.ShortOrImproperReferencesAreRefused : Prop :=
  ∀ (s : State) (ref : List Int) (k : Int) (mode : ChannelMode), 0 ≤ k → k ≤ 4 →
    (¬ Proper ref → genMasks ref k mode s = .refused .improperReference) ∧
    (Proper ref → ref.length < windowWidth mode → genMasks ref k mode s = .refused .shortReference) ∧
    (s.REF.length < windowWidth mode → computeAliases mode k s = .refused .shortReference)

/-- 42_mask_generator.md R89, 43_aliasing_tester.md R96: for `k = 0` the one candidate is the reference itself, and it
aliases, in either mode. -/
def Obligations.ZeroErrorsGiveTheReference : Prop :=
  ∀ (s : State) (mode : ChannelMode),
    (∀ ref : List Bit, windowWidth mode ≤ ref.length → genMasks (intsOf ref) 0 mode s =
      .next { s with responses := s.responses ++ [.ok (.sequences [ref])] }) ∧
    (windowWidth mode ≤ s.REF.length →
      ∃ t, computeAliases mode 0 s = .next t ∧ t.responses = s.responses ++ [.ok (.sequences [s.REF])])

/-- 43_aliasing_tester.md R90, R92, R93, R95: the aliases are, in generation order, the candidates whose whole signature
equals the reference's, each computed by the mode's SIGCHAIN command; only the registers of the mode's engine change, and
they end as the last candidate's signature leaves them (which R93 marks as derived, and which rests on the evaluations
being made on this one instance, the model's choice: log 17). -/
def Obligations.AliasesAreTheCandidatesWithTheReferenceSignature : Prop :=
  ∀ (s : State) (k : Nat) (mode : ChannelMode), k ≤ 4 → windowWidth mode ≤ s.REF.length →
    ∃ t l cands, computeAliases mode k s = .next t ∧ t.responses = s.responses ++ [.ok (.sequences l)] ∧
      genMasks (intsOf s.REF) k mode s =
        .next { s with responses := s.responses ++ [.ok (.sequences cands)] } ∧
      l.Sublist cands ∧
      (∀ c ∈ cands, (c ∈ l ↔ ∃ etalon, Answers (signatureCommand mode s.REF) s (.bits etalon) ∧
        Answers (signatureCommand mode c) s (.bits etalon))) ∧
      t = { s with T := t.T, R1 := t.R1, R2 := t.R2, responses := t.responses } ∧
      (mode = .single → t.R1 = s.R1 ∧ t.R2 = s.R2) ∧ (mode = .dual → t.T = s.T) ∧
      ∀ c, cands.getLast? = some c → ∃ u, exec (signatureCommand mode c) s = .next u ∧
        t.T = u.T ∧ t.R1 = u.R1 ∧ t.R2 = u.R2

/-- 43_aliasing_tester.md R98, marked as derived there: in mode `single`, for `n ≥ 2`, the aliases are the reference for `k = 0`, the reference
with its last element flipped for `k = 1`, and none for `k = 2, 3, 4`; for `n = 1` only the reference for `k = 0`. -/
def Obligations.AliasesInSingleMode : Prop :=
  ∀ (s : State) (k : Nat), s.Inv → k ≤ 4 → 8 ≤ s.REF.length →
    ∃ t l, computeAliases .single k s = .next t ∧ t.responses = s.responses ++ [.ok (.sequences l)] ∧
      (k = 0 → l = [s.REF]) ∧
      (2 ≤ s.n → k = 1 → l = [s.REF.dropLast ++ [!(s.REF.getLastD false)]]) ∧
      (2 ≤ s.n → 2 ≤ k → l = []) ∧ (s.n = 1 → 1 ≤ k → l = [])

/-- 43_aliasing_tester.md R99, marked as derived there: in mode `dual` the number of aliases is `C(h, k)`, where `h` is the number of window
indices the result cannot see. -/
def Obligations.AliasCountInDualMode : Prop :=
  ∀ (s : State) (k : Nat), s.Inv → k ≤ 4 → 16 ≤ s.REF.length →
    ∃ t l, computeAliases .dual k s = .next t ∧ t.responses = s.responses ++ [.ok (.sequences l)] ∧
      l.length = (min (2 * s.n + s.REF.length % 2) 16).choose k

/-- 10_state.md R17: beginning a test session fixes REF, a proper bit sequence, and changes nothing else; an improper one
is refused; and no other request writes REF. The request that begins a session is the model's (log 18). -/
def Obligations.OnlyANewSessionWritesTheReference : Prop :=
  ∀ (s : State) (r : Request) (rest : List Request), s.pending = r :: rest →
    (∀ ref, r = .newSession (intsOf ref) → step s = .next { s with REF := ref, pending := rest }) ∧
    (∀ ref, r = .newSession ref → ¬ Proper ref → step s = .refused .improperReference) ∧
    ((∀ ref, r ≠ .newSession ref) → ∀ t, step s = .next t → t.REF = s.REF)

/-- Every order of the masks comes from some draw, and every draw gives an order of them (42_mask_generator.md R86): the
free value GEN_ORDER leaves out none and adds none (log 7). -/
def Obligations.EveryGenerationOrderIsADraw : Prop :=
  ∀ l l' : List (List Bit), l'.Perm l ↔ ∃ draw, arrange draw l = l'

end
end

