-- ==== Sys2Proof/Laws/State.lean ====
section
/-! SUPPORT. One lemma per field per update of the state, each true by `rfl`, and each composed operation as the updates
it is made of. -/

namespace Sys2Proof.Machine

variable (s : State)

@[simp] theorem State.withT_n (v : List Bit) : (s.withT v).n = s.n := rfl
@[simp] theorem State.withT_P (v : List Bit) : (s.withT v).P = s.P := rfl
@[simp] theorem State.withT_T (v : List Bit) : (s.withT v).T = v := rfl
@[simp] theorem State.withT_R1 (v : List Bit) : (s.withT v).R1 = s.R1 := rfl
@[simp] theorem State.withT_R2 (v : List Bit) : (s.withT v).R2 = s.R2 := rfl
@[simp] theorem State.withT_REF (v : List Bit) : (s.withT v).REF = s.REF := rfl
@[simp] theorem State.withT_pending (v : List Bit) : (s.withT v).pending = s.pending := rfl
@[simp] theorem State.withT_responses (v : List Bit) : (s.withT v).responses = s.responses := rfl
@[simp] theorem State.withT_taps (v : List Bit) : (s.withT v).taps = s.taps := rfl

@[simp] theorem State.withPair_n (r : List Bit × List Bit) : (s.withPair r).n = s.n := rfl
@[simp] theorem State.withPair_P (r : List Bit × List Bit) : (s.withPair r).P = s.P := rfl
@[simp] theorem State.withPair_T (r : List Bit × List Bit) : (s.withPair r).T = s.T := rfl
@[simp] theorem State.withPair_R1 (r : List Bit × List Bit) : (s.withPair r).R1 = r.1 := rfl
@[simp] theorem State.withPair_R2 (r : List Bit × List Bit) : (s.withPair r).R2 = r.2 := rfl
@[simp] theorem State.withPair_REF (r : List Bit × List Bit) : (s.withPair r).REF = s.REF := rfl
@[simp] theorem State.withPair_pending (r : List Bit × List Bit) : (s.withPair r).pending = s.pending := rfl
@[simp] theorem State.withPair_responses (r : List Bit × List Bit) : (s.withPair r).responses = s.responses := rfl
@[simp] theorem State.withPair_taps (r : List Bit × List Bit) : (s.withPair r).taps = s.taps := rfl

@[simp] theorem State.withREF_n (v : List Bit) : (s.withREF v).n = s.n := rfl
@[simp] theorem State.withREF_P (v : List Bit) : (s.withREF v).P = s.P := rfl
@[simp] theorem State.withREF_T (v : List Bit) : (s.withREF v).T = s.T := rfl
@[simp] theorem State.withREF_R1 (v : List Bit) : (s.withREF v).R1 = s.R1 := rfl
@[simp] theorem State.withREF_R2 (v : List Bit) : (s.withREF v).R2 = s.R2 := rfl
@[simp] theorem State.withREF_REF (v : List Bit) : (s.withREF v).REF = v := rfl
@[simp] theorem State.withREF_pending (v : List Bit) : (s.withREF v).pending = s.pending := rfl
@[simp] theorem State.withREF_responses (v : List Bit) : (s.withREF v).responses = s.responses := rfl

@[simp] theorem State.withPending_n (rs : List Request) : (s.withPending rs).n = s.n := rfl
@[simp] theorem State.withPending_P (rs : List Request) : (s.withPending rs).P = s.P := rfl
@[simp] theorem State.withPending_T (rs : List Request) : (s.withPending rs).T = s.T := rfl
@[simp] theorem State.withPending_R1 (rs : List Request) : (s.withPending rs).R1 = s.R1 := rfl
@[simp] theorem State.withPending_R2 (rs : List Request) : (s.withPending rs).R2 = s.R2 := rfl
@[simp] theorem State.withPending_REF (rs : List Request) : (s.withPending rs).REF = s.REF := rfl
@[simp] theorem State.withPending_pending (rs : List Request) : (s.withPending rs).pending = rs := rfl
@[simp] theorem State.withPending_responses (rs : List Request) : (s.withPending rs).responses = s.responses := rfl
@[simp] theorem State.withPending_taps (rs : List Request) : (s.withPending rs).taps = s.taps := rfl

@[simp] theorem State.respond_n (r : Response) : (s.respond r).n = s.n := rfl
@[simp] theorem State.respond_P (r : Response) : (s.respond r).P = s.P := rfl
@[simp] theorem State.respond_T (r : Response) : (s.respond r).T = s.T := rfl
@[simp] theorem State.respond_R1 (r : Response) : (s.respond r).R1 = s.R1 := rfl
@[simp] theorem State.respond_R2 (r : Response) : (s.respond r).R2 = s.R2 := rfl
@[simp] theorem State.respond_REF (r : Response) : (s.respond r).REF = s.REF := rfl
@[simp] theorem State.respond_pending (r : Response) : (s.respond r).pending = s.pending := rfl
@[simp] theorem State.respond_responses (r : Response) : (s.respond r).responses = s.responses ++ [r] := rfl
@[simp] theorem State.respond_taps (r : Response) : (s.respond r).taps = s.taps := rfl

@[simp] theorem State.withT_withT (v w : List Bit) : (s.withT v).withT w = s.withT w := rfl
@[simp] theorem State.withPair_withPair (r q : List Bit × List Bit) : (s.withPair r).withPair q = s.withPair q := rfl

@[simp] theorem State.complete_eq_respond (p : Payload) : s.complete p = s.respond (.ok p) := rfl
@[simp] theorem State.fail_eq_respond (k : FailureKind) (f : FailInfo) : s.fail k f = s.respond (.failed k f) := rfl
@[simp] theorem State.clearA_eq_withT : s.clearA = s.withT (zeros s.n) := rfl
@[simp] theorem State.clearB_eq_withPair : s.clearB = s.withPair (zeros s.n, zeros s.n) := rfl
@[simp] theorem State.hardReset_eq : s.hardReset = (s.withT (zeros s.n)).withPair (zeros s.n, zeros s.n) := rfl
@[simp] theorem State.stepA_eq_withT (bs : List Bit) : s.stepA bs = s.withT (finalT s.n s.P s.T bs) := rfl
@[simp] theorem State.stepB_eq_withPair (bs : List Bit) :
    s.stepB bs = s.withPair (finalPair s.n s.taps (s.R1, s.R2) (pairsOf bs)) := rfl

/-- Two states with the same fields are the same. -/
@[ext] theorem State.ext_fields {s t : State} (hn : s.n = t.n) (hP : s.P = t.P) (hT : s.T = t.T) (h1 : s.R1 = t.R1)
    (h2 : s.R2 = t.R2) (hR : s.REF = t.REF) (hp : s.pending = t.pending) (hr : s.responses = t.responses) : s = t := by
  cases s; cases t; simp_all

end Sys2Proof.Machine
end

