-- ==== Sys2Proof/Laws/Operands.lean ====
section
/-! SUPPORT. What the operand forms and the arithmetic on bits do, said once. -/

namespace Sys2Proof.Machine

/-! ### Integers and bits -/

theorem bitInt_isBit (b : Bit) : IsBit (bitInt b) := by cases b <;> decide

@[simp] theorem bitOf_bitInt (b : Bit) : bitOf (bitInt b) = some b := by cases b <;> decide

theorem bitInt_injective {a b : Bit} (h : bitInt a = bitInt b) : a = b := by
  have := congrArg bitOf h
  simpa using this

theorem isBit_iff_bitInt {v : Int} : IsBit v ↔ ∃ b, v = bitInt b :=
  ⟨fun h => h.elim (fun h => ⟨false, h⟩) (fun h => ⟨true, h⟩), fun ⟨b, h⟩ => h ▸ bitInt_isBit b⟩

theorem bitOf_eq_none_iff {v : Int} : bitOf v = none ↔ ¬ IsBit v := by
  unfold bitOf; split_ifs <;> simp_all [IsBit]

/-! ### Sequence operands -/

@[simp] theorem intsOf_nil : intsOf [] = [] := rfl
@[simp] theorem intsOf_cons (b : Bit) (bs : List Bit) : intsOf (b :: bs) = bitInt b :: intsOf bs := rfl
@[simp] theorem intsOf_append (bs cs : List Bit) : intsOf (bs ++ cs) = intsOf bs ++ intsOf cs := List.map_append
@[simp] theorem intsOf_length (bs : List Bit) : (intsOf bs).length = bs.length := List.length_map ..

theorem intsOf_injective {bs cs : List Bit} (h : intsOf bs = intsOf cs) : bs = cs :=
  (List.map_injective_iff.2 fun _ _ => bitInt_injective) h

theorem intsOf_take (bs : List Bit) (k : Nat) : (intsOf bs).take k = intsOf (bs.take k) := List.map_take.symm

theorem proper_intsOf (bs : List Bit) : Proper (intsOf bs) := by
  intro v hv
  obtain ⟨b, -, rfl⟩ := List.mem_map.1 hv
  exact bitInt_isBit b

/-- A sequence is proper, or has a first bad element. -/
theorem proper_or_bad (s : List Int) :
    (∃ bs, s = intsOf bs) ∨ ∃ good bad rest, ¬ IsBit bad ∧ s = intsOf good ++ bad :: rest := by
  induction s with
  | nil => exact .inl ⟨[], rfl⟩
  | cons v s ih =>
    by_cases hv : IsBit v
    · obtain ⟨b, rfl⟩ := isBit_iff_bitInt.1 hv
      obtain ⟨bs, rfl⟩ | ⟨good, bad, rest, hb, rfl⟩ := ih
      · exact .inl ⟨b :: bs, rfl⟩
      · exact .inr ⟨b :: good, bad, rest, hb, rfl⟩
    · exact .inr ⟨[], v, s, hv, rfl⟩

theorem proper_iff_intsOf {s : List Int} : Proper s ↔ ∃ bs, s = intsOf bs := by
  constructor
  · intro h
    obtain h' | ⟨good, bad, rest, hb, rfl⟩ := proper_or_bad s
    · exact h'
    · exact absurd (h bad (by simp)) hb
  · rintro ⟨bs, rfl⟩
    exact proper_intsOf bs

theorem checkFrom_intsOf (i : Nat) (bs : List Bit) : checkFrom i (intsOf bs) = .proper bs := by
  induction bs generalizing i with
  | nil => rfl
  | cons b bs ih => simp [checkFrom, ih, Checked.push]

theorem checkFrom_bad (i : Nat) (good : List Bit) {bad : Int} (rest : List Int) (h : ¬ IsBit bad) :
    checkFrom i (intsOf good ++ bad :: rest) = .improper good { value := bad, index := some (i + good.length) } := by
  induction good generalizing i with
  | nil => simp [checkFrom, bitOf_eq_none_iff.2 h]
  | cons b good ih => simp [checkFrom, ih, Checked.push]; omega

/-- A proper operand is read as its bits. -/
@[simp] theorem checkSeq_intsOf (bs : List Bit) : checkSeq (intsOf bs) = .proper bs := checkFrom_intsOf 0 bs

/-- An improper operand is read up to its first bad element, which is reported with its index. -/
theorem checkSeq_bad (good : List Bit) {bad : Int} (rest : List Int) (h : ¬ IsBit bad) :
    checkSeq (intsOf good ++ bad :: rest) = .improper good { value := bad, index := some good.length } := by
  have := checkFrom_bad 0 good rest h
  simpa [checkSeq] using this

/-- Everything reading an operand can answer. -/
theorem checkSeq_cases (s : List Int) :
    (∃ bs, s = intsOf bs ∧ checkSeq s = .proper bs) ∨
      (¬ Proper s ∧ ∃ good info, checkSeq s = .improper good info) := by
  obtain ⟨bs, rfl⟩ | ⟨good, bad, rest, hb, rfl⟩ := proper_or_bad s
  · exact .inl ⟨bs, rfl, checkSeq_intsOf bs⟩
  · exact .inr ⟨fun h => hb (h bad (by simp)), good, _, checkSeq_bad good rest hb⟩

theorem consumed_length (s : List Int) : (consumed s).length = 2 * (s.length / 2) := by
  simp [consumed]; omega

theorem consumed_intsOf (bs : List Bit) : consumed (intsOf bs) = intsOf (bs.take (2 * (bs.length / 2))) := by
  simp [consumed, intsOf_take]

theorem consumed_of_even {s : List Int} (h : s.length % 2 = 0) : consumed s = s :=
  List.take_of_length_le (by omega)

theorem consumed_append_singleton {s : List Int} (e : Int) (h : s.length % 2 = 0) : consumed (s ++ [e]) = s := by
  unfold consumed
  rw [show 2 * ((s ++ [e]).length / 2) = s.length by simp; omega]
  simp

/-! ### Pairs -/

theorem pairsOf_length (bs : List Bit) : (pairsOf bs).length = bs.length / 2 := by
  induction bs using pairsOf.induct with
  | case1 a b s ih => simp [pairsOf, ih]; omega
  | case2 => simp [pairsOf]
  | case3 => simp [pairsOf]

theorem pairsOf_take_even (bs : List Bit) : pairsOf (bs.take (2 * (bs.length / 2))) = pairsOf bs := by
  induction bs using pairsOf.induct with
  | case1 a b s ih =>
    rw [show 2 * ((a :: b :: s).length / 2) = 2 * (s.length / 2) + 1 + 1 by simp; omega]
    simp [pairsOf, ih]
  | case2 => simp [pairsOf]
  | case3 => simp [pairsOf]

theorem pairsOf_eq_map (bs : List Bit) :
    pairsOf bs = (List.range (bs.length / 2)).map fun i => (bitAt bs (2 * i), bitAt bs (2 * i + 1)) := by
  induction bs using pairsOf.induct with
  | case1 a b s ih =>
    rw [show (a :: b :: s).length / 2 = s.length / 2 + 1 by simp; omega, List.range_succ_eq_map]
    simp [pairsOf, ih, bitAt, Nat.mul_add]
  | case2 => simp [pairsOf]
  | case3 => simp [pairsOf]

/-! ### Vectors -/

@[simp] theorem vecOf_length (n : Nat) (f : Nat → Bit) : (vecOf n f).length = n := by simp [vecOf]

theorem bitAt_vecOf {n i : Nat} (f : Nat → Bit) (h : i < n) : bitAt (vecOf n f) i = f i := by
  simp [bitAt, vecOf, h]

@[simp] theorem zeros_length (n : Nat) : (zeros n).length = n := by simp [zeros]

@[simp] theorem bitAt_zeros (n i : Nat) : bitAt (zeros n) i = false := by
  by_cases h : i < n <;> simp [bitAt, zeros, List.getD_eq_getElem?_getD, h]

@[simp] theorem bitAt_nil (i : Nat) : bitAt [] i = false := rfl
@[simp] theorem bitAt_cons_zero (b : Bit) (v : List Bit) : bitAt (b :: v) 0 = b := rfl
@[simp] theorem bitAt_cons_succ (b : Bit) (v : List Bit) (i : Nat) : bitAt (b :: v) (i + 1) = bitAt v i := rfl

theorem bitAt_of_length_le {v : List Bit} {i : Nat} (h : v.length ≤ i) : bitAt v i = false := by
  simp [bitAt, List.getD_eq_getElem?_getD, List.getElem?_eq_none h]

theorem bitAt_eq_getElem {v : List Bit} {i : Nat} (h : i < v.length) : bitAt v i = v[i] := by
  simp [bitAt, List.getD_eq_getElem?_getD, h]

/-- Two vectors of one length that agree at every index are equal. -/
theorem ext_bitAt {v w : List Bit} (hl : v.length = w.length) (h : ∀ i, i < v.length → bitAt v i = bitAt w i) :
    v = w := by
  apply List.ext_getElem hl
  intro i h1 h2
  simpa [bitAt_eq_getElem, h1, h2] using h i h1

/-! ### XOR-reduction -/

theorem xorReduce_append (v w : List Bit) : xorReduce (v ++ w) = xor (xorReduce v) (xorReduce w) := by
  induction v with
  | nil => simp [xorReduce]
  | cons b v ih => simp [xorReduce, ih]

/-- XOR-reduction is the parity of the number of ones. -/
theorem xorReduce_eq_odd_count (v : List Bit) : xorReduce v = decide (v.countP id % 2 = 1) := by
  induction v with
  | nil => rfl
  | cons b v ih =>
    rcases Nat.mod_two_eq_zero_or_one (v.countP id) with h | h <;> cases b <;>
      simp [xorReduce, ih, h, Nat.add_mod]

theorem xorReduce_range (n : Nat) (f : Nat → Bit) : xorReduce ((List.range n).map f) = oddCount n f := by
  rw [xorReduce_eq_odd_count, List.countP_map]
  rfl

theorem xorReduce_map_xor {α : Type} (l : List α) (f g : α → Bit) :
    xorReduce (l.map fun i => xor (f i) (g i)) = xor (xorReduce (l.map f)) (xorReduce (l.map g)) := by
  induction l with
  | nil => rfl
  | cons a l ih => simp [xorReduce, ih, Bool.xor_left_comm]

/-- A reduction over the taps is one over the set positions (10_state.md R13). -/
theorem xorReduce_tapsOf (n : Nat) (P : List Bit) (g : Nat → Bit) :
    xorReduce ((tapsOf n P).map g) = oddCount n fun i => bitAt P i && g (n - i) := by
  rw [← xorReduce_range, tapsOf]
  generalize List.range n = l
  induction l with
  | nil => rfl
  | cons i l ih =>
    cases h : bitAt P i <;> simp [h, xorReduce, ih]

/-! ### Vectors, position by position -/

theorem bitAt_set (v : List Bit) (i j : Nat) (b : Bit) :
    bitAt (v.set i b) j = if i = j ∧ j < v.length then b else bitAt v j := by
  simp only [bitAt, List.getD_eq_getElem?_getD, List.getElem?_set]
  by_cases h : i = j
  · subst h
    by_cases hl : i < v.length <;> simp [hl]
  · simp [h]

theorem bitAt_take {v : List Bit} {i k : Nat} (h : i < k) : bitAt (v.take k) i = bitAt v i := by
  rw [bitAt, bitAt, List.getD_eq_getElem?_getD, List.getD_eq_getElem?_getD, List.getElem?_take, if_pos h]

/-- A rotation by one to the right, position by position. -/
theorem rotateRight_one (v : List Bit) :
    v.rotateRight 1 = vecOf v.length fun i => if i = 0 then bitAt v (v.length - 1) else bitAt v (i - 1) := by
  show (if v.length ≤ 1 then v else v.drop (v.length - 1 % v.length) ++ v.take (v.length - 1 % v.length)) = _
  by_cases h : v.length ≤ 1
  · rw [if_pos h]
    apply ext_bitAt (by simp)
    intro i hi
    rw [bitAt_vecOf _ hi, if_pos (by omega)]
    congr 1; omega
  · rw [if_neg h, Nat.mod_eq_of_lt (by omega)]
    apply ext_bitAt (by simp)
    intro i hi
    simp at hi
    rw [bitAt_vecOf _ (by omega)]
    simp only [bitAt, List.getD_eq_getElem?_getD]
    rw [List.getElem?_append]
    simp
    split_ifs <;> try omega
    · rename_i h1 h2; subst h2; simp
    · rw [List.getElem?_take, if_pos (by omega)]; congr 2; omega

theorem bitAt_zipWith_xor {v w : List Bit} (h : v.length = w.length) (i : Nat) :
    bitAt (List.zipWith xor v w) i = xor (bitAt v i) (bitAt w i) := by
  simp only [bitAt, List.getD_eq_getElem?_getD, List.getElem?_zipWith]
  by_cases hi : i < v.length
  · simp [hi, h ▸ hi]
  · rw [List.getElem?_eq_none (by omega), List.getElem?_eq_none (by omega)]; rfl

theorem zipWith_xor_zeros (v : List Bit) : List.zipWith xor v (List.replicate v.length false) = v := by
  induction v with
  | nil => rfl
  | cons b v ih => simp [List.replicate_succ, ih]

/-- XOR by the same vector undoes itself. -/
theorem zipWith_xor_cancel {v w : List Bit} (h : v.length = w.length) :
    List.zipWith xor (List.zipWith xor v w) v = w := by
  induction v generalizing w with
  | nil => cases w with
    | nil => rfl
    | cons _ _ => simp at h
  | cons b v ih => cases w with
    | nil => simp at h
    | cons c w => simp [ih (show v.length = w.length by simpa using h)]; cases b <;> cases c <;> rfl

end Sys2Proof.Machine
end

