-- ==== Sys2Proof/Laws/Assembly.lean ====
section
/-! SUPPORT. What the pieces of the line reader do (30_encoding.md R43), said once. -/

namespace Sys2Proof.Machine

/-- A text is split at the first separator. -/
theorem splitFirst_append {c : Char} {a : List Char} (b : List Char) (h : c ∉ a) :
    splitFirst c (a ++ c :: b) = some (a, b) := by
  induction a with
  | nil => simp [splitFirst]
  | cons x a ih =>
    simp only [List.mem_cons, not_or] at h
    simp [splitFirst, Ne.symm h.1, ih h.2]

theorem splitFirst_none {c : Char} {a : List Char} (h : c ∉ a) : splitFirst c a = none := by
  induction a with
  | nil => rfl
  | cons x a ih =>
    simp only [List.mem_cons, not_or] at h
    simp [splitFirst, Ne.symm h.1, ih h.2]

theorem dropSpaces_of_head {cs : List Char} (h : cs.head? ≠ some ' ') : dropSpaces cs = cs := by
  cases cs with
  | nil => rfl
  | cons c cs =>
    have : c ≠ ' ' := by simpa using h
    simp [dropSpaces, this]

/-- A text without a space at an end is its own trimming. -/
theorem trim_of_ends {cs : List Char} (h : cs.head? ≠ some ' ') (h' : cs.getLast? ≠ some ' ') : trim cs = cs := by
  rw [trim, dropSpaces_of_head h, dropSpaces_of_head (by simpa using h'), List.reverse_reverse]

theorem trim_cons_space (cs : List Char) : trim (' ' :: cs) = trim cs := by simp [trim, dropSpaces]

theorem splitCommas_ne_nil (cs : List Char) : splitCommas cs ≠ [] := by
  induction cs with
  | nil => simp [splitCommas]
  | cons x cs ih => simp only [splitCommas]; split <;> [simp; (split <;> simp)]

theorem intText_bitInt (b : Bit) : intText (bitInt b) = [if b then '1' else '0'] := by cases b <;> decide

end Sys2Proof.Machine
end

