-- ==== Sys2Proof/Laws/VariantA.lean ====
section
/-! SUPPORT. What engine A's operations do, said once: the answers of its four meanings, and the elements of its register
after a step and after a run. -/

namespace Sys2Proof.Machine

/-! ### The meanings on each kind of operand -/

theorem execAAdvance_bit (b : Bit) (s : State) : execAAdvance (bitInt b) s =
    .next ((s.withT (advanceT s.n s.P s.T b)).respond (.ok (.vector (advanceT s.n s.P s.T b)))) := by
  simp [execAAdvance]

theorem execAAdvance_nonBit {v : Int} (h : ¬ IsBit v) (s : State) :
    execAAdvance v s = .next (s.respond (.failed .invalidInput { value := v, index := none })) := by
  simp [execAAdvance, bitOf_eq_none_iff.2 h]

theorem execARun_proper (bs : List Bit) (s : State) : execARun (intsOf bs) s =
    .next ((s.withT (finalT s.n s.P s.T bs)).respond (.ok (.snapshots (trajectory s.n s.P s.T bs)))) := by
  simp [execARun]

theorem execARun_improper (good : List Bit) {bad : Int} (rest : List Int) (h : ¬ IsBit bad) (s : State) :
    execARun (intsOf good ++ bad :: rest) s =
      .next ((afterFailure Config.seqFailPolicy s (s.withT (finalT s.n s.P s.T good))).respond
        (.failed .invalidInput { value := bad, index := some good.length })) := by
  simp [execARun, checkSeq_bad good rest h]

theorem execASigchain_proper (bs : List Bit) (s : State) : execASigchain (intsOf bs) s =
    .next ((s.withT (finalT s.n s.P (zeros s.n) bs)).respond (.ok (.bits (chainA s.n s.P bs)))) := by
  simp [execASigchain]

theorem execASigchain_improper (good : List Bit) {bad : Int} (rest : List Int) (h : ¬ IsBit bad) (s : State) :
    execASigchain (intsOf good ++ bad :: rest) s =
      .next ((afterFailure Config.seqFailPolicy s (s.withT (finalT s.n s.P (zeros s.n) good))).respond
        (.failed .invalidInput { value := bad, index := some good.length })) := by
  simp [execASigchain, checkSeq_bad good rest h]

/-! ### One step -/

@[simp] theorem advanceT_length (n : Nat) (P v : List Bit) (b : Bit) : (advanceT n P v b).length = n := by
  simp [advanceT]

theorem feedback_eq_oddCount (n : Nat) (P v : List Bit) (b : Bit) :
    feedback n P v b = xor (oddCount n fun i => bitAt v i && bitAt P i) b := by
  rw [feedback, xorReduce_range]

theorem bitAt_advanceT_last {n : Nat} (hn : 1 ≤ n) (P v : List Bit) (b : Bit) :
    bitAt (advanceT n P v b) (n - 1) = feedback n P v b := by
  simp [advanceT, bitAt_vecOf _ (show n - 1 < n by omega)]

theorem bitAt_advanceT_zero {n : Nat} (hn : 2 ≤ n) (P v : List Bit) (b : Bit) :
    bitAt (advanceT n P v b) 0 = bitAt v (n - 1) := by
  simp [advanceT, bitAt_vecOf _ (show 0 < n by omega), show ¬ 0 = n - 1 by omega]

theorem bitAt_advanceT_succ {n i : Nat} (hi : i + 2 < n) (P v : List Bit) (b : Bit) :
    bitAt (advanceT n P v b) (i + 1) = bitAt v i := by
  simp [advanceT, bitAt_vecOf _ (show i + 1 < n by omega), show ¬ i + 1 = n - 1 by omega]

/-! ### A run -/

@[simp] theorem finalT_nil (n : Nat) (P T : List Bit) : finalT n P T [] = T := rfl

theorem finalT_append (n : Nat) (P T bs cs : List Bit) :
    finalT n P T (bs ++ cs) = finalT n P (finalT n P T bs) cs := by
  induction bs generalizing T with
  | nil => rfl
  | cons b bs ih => exact ih _

theorem finalT_length {n : Nat} (P : List Bit) {T : List Bit} (h : T.length = n) (bs : List Bit) :
    (finalT n P T bs).length = n := by
  induction bs generalizing T with
  | nil => exact h
  | cons b bs ih => exact ih (advanceT_length ..)

/-- The vector after one step more. -/
theorem finalT_take_succ (n : Nat) (P T bs : List Bit) {j : Nat} (h : j < bs.length) :
    finalT n P T (bs.take (j + 1)) = advanceT n P (finalT n P T (bs.take j)) (bitAt bs j) := by
  rw [List.take_add_one, List.getElem?_eq_getElem h, Option.toList_some, finalT_append, bitAt_eq_getElem h]
  rfl

@[simp] theorem trajectory_length (n : Nat) (P T bs : List Bit) : (trajectory n P T bs).length = bs.length + 1 := by
  induction bs generalizing T with
  | nil => rfl
  | cons b bs ih => simp [trajectory, ih]

/-- Snapshot `j` is the vector after the first `j` bits. -/
theorem trajectory_getElem? (n : Nat) (P T bs : List Bit) {j : Nat} (h : j ≤ bs.length) :
    (trajectory n P T bs)[j]? = some (finalT n P T (bs.take j)) := by
  induction bs generalizing T j with
  | nil => obtain rfl : j = 0 := by simpa using h
           rfl
  | cons b bs ih =>
    cases j with
    | zero => rfl
    | succ j => simpa [trajectory, finalT] using ih (advanceT n P T b) (by simpa using h)

theorem trajectory_eq_map (n : Nat) (P T bs : List Bit) :
    trajectory n P T bs = (List.range (bs.length + 1)).map fun j => finalT n P T (bs.take j) := by
  apply List.ext_getElem?
  intro j
  by_cases h : j ≤ bs.length
  · rw [trajectory_getElem? n P T bs h, List.getElem?_map, List.getElem?_range (by omega)]
    rfl
  · rw [List.getElem?_eq_none (by simp; omega), List.getElem?_eq_none (by simp; omega)]

theorem trajectory_append (n : Nat) (P T bs cs : List Bit) :
    trajectory n P T (bs ++ cs) = trajectory n P T bs ++ (trajectory n P (finalT n P T bs) cs).tail := by
  induction bs generalizing T with
  | nil => cases cs <;> rfl
  | cons b bs ih => simp [trajectory, finalT, ih]

@[simp] theorem chainA_length (n : Nat) (P bs : List Bit) : (chainA n P bs).length = bs.length + 1 := by
  simp [chainA]

/-- Chain element `j` is the head after the first `j` bits. -/
theorem bitAt_chainA (n : Nat) (P bs : List Bit) {j : Nat} (h : j ≤ bs.length) :
    bitAt (chainA n P bs) j = bitAt (finalT n P (zeros n) (bs.take j)) 0 := by
  simp [bitAt, chainA, List.getD_eq_getElem?_getD, trajectory_getElem? n P (zeros n) bs h]

theorem trajectory_getLastD (n : Nat) (P T bs : List Bit) : (trajectory n P T bs).getLastD [] = finalT n P T bs := by
  have := trajectory_getElem? n P T bs (j := bs.length) (Nat.le_refl _)
  rw [List.take_length] at this
  rw [List.getLastD_eq_getLast?, List.getLast?_eq_getElem?, trajectory_length, Nat.add_sub_cancel, this]
  rfl

/-- The feedback tells the two input bits apart. -/
theorem feedback_injective {n : Nat} {P v : List Bit} {a b : Bit} (h : feedback n P v a = feedback n P v b) : a = b :=
  Bool.xor_right_inj.1 h

/-- One step is linear over XOR. -/
theorem advanceT_xor {n : Nat} (P : List Bit) {v w : List Bit} (hv : v.length = n) (hw : w.length = n) (a b : Bit) :
    advanceT n P (List.zipWith xor v w) (xor a b) = List.zipWith xor (advanceT n P v a) (advanceT n P w b) := by
  apply ext_bitAt (by simp)
  intro i hi
  simp at hi
  have hz := bitAt_zipWith_xor (hv.trans hw.symm)
  rw [bitAt_zipWith_xor (by simp), advanceT, advanceT, advanceT, bitAt_vecOf _ hi, bitAt_vecOf _ hi, bitAt_vecOf _ hi]
  split_ifs
  · simp only [feedback, hz, Bool.and_xor_distrib_right, xorReduce_map_xor]
    generalize xorReduce _ = x
    generalize xorReduce _ = y
    cases x <;> cases y <;> cases a <;> cases b <;> rfl
  · exact hz _
  · exact hz _

end Sys2Proof.Machine
end

