-- ==== Sys2Proof/Laws/VariantB.lean ====
section
/-! SUPPORT. What engine B's operations do, said once: the answers of its three meanings, one register of the pair on its
own input stream, and its elements after a series of steps. -/

namespace Sys2Proof.Machine

/-! ### The meanings on each kind of operand -/

theorem execBStep2_bits (a b : Bit) (s : State) : execBStep2 (bitInt a) (bitInt b) s =
    .next ((s.withPair (shiftR s.n s.taps s.R1 a, shiftR s.n s.taps s.R2 b)).respond
      (.ok (.pair (emitted s.n s.R1) (emitted s.n s.R2)))) := by
  simp [execBStep2, shiftPair]

theorem execBStep2_nonBit {x0 x1 : Int} (h : ¬ (IsBit x0 ∧ IsBit x1)) (s : State) :
    ∃ info, execBStep2 x0 x1 s = .next (s.respond (.failed .invalidInput info)) := by
  by_cases h0 : IsBit x0
  · obtain ⟨a, rfl⟩ := isBit_iff_bitInt.1 h0
    exact ⟨⟨x1, none⟩, by simp [execBStep2, bitOf_eq_none_iff.2 fun h1 => h ⟨h0, h1⟩]⟩
  · exact ⟨⟨x0, none⟩, by simp [execBStep2, bitOf_eq_none_iff.2 h0]⟩

/-- An operand whose consumed part is proper. -/
theorem execBSigchain_consumed {operand : List Int} {bs : List Bit} (h : consumed operand = intsOf bs) (s : State) :
    execBSigchain operand s =
      .next ((s.withPair (finalPair s.n s.taps (zeros s.n, zeros s.n) (pairsOf bs))).respond
        (.ok (.bits (chainB s.n s.P bs)))) := by
  simp [execBSigchain, h]

theorem chainB_take_even (n : Nat) (P bs : List Bit) : chainB n P (bs.take (2 * (bs.length / 2))) = chainB n P bs := by
  rw [chainB, chainB, pairsOf_take_even]

theorem execBSigchain_proper (bs : List Bit) (s : State) : execBSigchain (intsOf bs) s =
    .next ((s.withPair (finalPair s.n s.taps (zeros s.n, zeros s.n) (pairsOf bs))).respond
      (.ok (.bits (chainB s.n s.P bs)))) := by
  rw [execBSigchain_consumed (consumed_intsOf bs), pairsOf_take_even, chainB_take_even]

theorem execBSigchain_improper {operand : List Int} {good : List Bit} {bad : Int} {rest : List Int}
    (h : consumed operand = intsOf good ++ bad :: rest) (hb : ¬ IsBit bad) (s : State) : execBSigchain operand s =
      .next ((afterFailure Config.seqFailPolicy s
        (s.withPair (finalPair s.n s.taps (zeros s.n, zeros s.n) (pairsOf good)))).respond
        (.failed .invalidInput { value := bad, index := some good.length })) := by
  simp [execBSigchain, h, checkSeq_bad good rest hb]

/-! ### One register -/

@[simp] theorem shiftR_length (n : Nat) (taps : List Nat) (R : List Bit) (x : Bit) : (shiftR n taps R x).length = n := by
  simp [shiftR]

theorem bitAt_shiftR_zero {n : Nat} (hn : 1 ≤ n) (taps : List Nat) (R : List Bit) (x : Bit) :
    bitAt (shiftR n taps R x) 0 = foldTaps taps R x := by
  simp [shiftR, bitAt_vecOf _ (show 0 < n by omega)]

theorem bitAt_shiftR_succ {n j : Nat} (hj : j + 1 < n) (taps : List Nat) (R : List Bit) (x : Bit) :
    bitAt (shiftR n taps R x) (j + 1) = bitAt R j := by
  simp [shiftR, bitAt_vecOf _ hj]

/-- The inserted value, by the positions of the polynomial (41_variant_b.md R65). -/
theorem foldTaps_eq_oddCount (n : Nat) (P R : List Bit) (x : Bit) :
    foldTaps (tapsOf n P) R x = xor x (oddCount n fun i => bitAt P i && bitAt R (n - i - 1)) := by
  rw [foldTaps, xorReduce_tapsOf n P fun d => bitAt R (d - 1)]

/-- One register after a series of input bits of its own. -/
def finalR (n : Nat) (taps : List Nat) (R : List Bit) : List Bit → List Bit
  | [] => R
  | x :: xs => finalR n taps (shiftR n taps R x) xs

theorem finalR_append (n : Nat) (taps : List Nat) (R xs ys : List Bit) :
    finalR n taps R (xs ++ ys) = finalR n taps (finalR n taps R xs) ys := by
  induction xs generalizing R with
  | nil => rfl
  | cons x xs ih => exact ih _

theorem finalR_length {n : Nat} (taps : List Nat) {R : List Bit} (h : R.length = n) (xs : List Bit) :
    (finalR n taps R xs).length = n := by
  induction xs generalizing R with
  | nil => exact h
  | cons x xs ih => exact ih (shiftR_length ..)

/-- The register after one step more. -/
theorem finalR_take_succ (n : Nat) (taps : List Nat) (R xs : List Bit) {j : Nat} (h : j < xs.length) :
    finalR n taps R (xs.take (j + 1)) = shiftR n taps (finalR n taps R (xs.take j)) (bitAt xs j) := by
  rw [List.take_add_one, List.getElem?_eq_getElem h, Option.toList_some, finalR_append, bitAt_eq_getElem h]
  rfl

/-! ### The pair -/

/-- The two registers never read or write each other (10_state.md R15). -/
theorem finalPair_eq (n : Nat) (taps : List Nat) (r : List Bit × List Bit) (xs : List (Bit × Bit)) :
    finalPair n taps r xs = (finalR n taps r.1 (xs.map (·.1)), finalR n taps r.2 (xs.map (·.2))) := by
  induction xs generalizing r with
  | nil => rfl
  | cons x xs ih => simp [finalPair, finalR, ih, shiftPair]

@[simp] theorem emissions_length (n : Nat) (taps : List Nat) (r : List Bit × List Bit) (xs : List (Bit × Bit)) :
    (emissions n taps r xs).length = 2 * xs.length := by
  induction xs generalizing r with
  | nil => rfl
  | cons x xs ih => simp [emissions, ih]; omega

/-- The bits emitted at step `j`, register 1's first. -/
theorem bitAt_emissions (n : Nat) (taps : List Nat) (r : List Bit × List Bit) (xs : List (Bit × Bit)) {j : Nat}
    (h : j < xs.length) :
    bitAt (emissions n taps r xs) (2 * j) = emitted n (finalPair n taps r (xs.take j)).1 ∧
      bitAt (emissions n taps r xs) (2 * j + 1) = emitted n (finalPair n taps r (xs.take j)).2 := by
  induction xs generalizing r j with
  | nil => simp at h
  | cons x xs ih =>
    cases j with
    | zero => exact ⟨rfl, rfl⟩
    | succ j => simpa [emissions, Nat.mul_add, finalPair] using ih (shiftPair n taps r x) (by simpa using h)

@[simp] theorem chainB_length (n : Nat) (P bs : List Bit) : (chainB n P bs).length = 2 * (bs.length / 2) := by
  simp [chainB, pairsOf_length]

/-! ### One register's own inputs, and its share of the chain -/

/-- A step of a register with `n` elements: the inserted value in front, the last element dropped. -/
theorem shiftR_eq_cons {n : Nat} (hn : 1 ≤ n) (P : List Bit) {R : List Bit} (hR : R.length = n) (x : Bit) :
    shiftR n (tapsOf n P) R x = xor x (oddCount n fun i => bitAt P i && bitAt R (n - 1 - i)) :: R.dropLast := by
  apply ext_bitAt (by simp; omega)
  intro i hi
  simp at hi
  rw [shiftR, bitAt_vecOf _ hi]
  cases i with
  | zero =>
    rw [if_pos rfl, foldTaps_eq_oddCount, bitAt_cons_zero]
    simp only [Nat.sub_right_comm n _ 1]
  | succ i =>
    rw [if_neg (by omega), bitAt_cons_succ, bitAt_eq_getElem (by omega), bitAt_eq_getElem (by simp; omega)]
    simp

theorem emitted_eq_getLastD {n : Nat} {R : List Bit} (hR : R.length = n) : emitted n R = R.getLastD false := by
  rw [emitted, List.getLastD_eq_getLast?, List.getLast?_eq_getElem?, hR, bitAt, List.getD_eq_getElem?_getD]

/-- The inserted value tells the two input bits apart. -/
theorem foldTaps_injective {taps : List Nat} {R : List Bit} {x y : Bit} (h : foldTaps taps R x = foldTaps taps R y) :
    x = y := Bool.xor_left_inj.1 h

/-- The inputs of register `r` (0 or 1): the elements `2j + r` of the operand. -/
def inputsOf (bs : List Bit) (r : Nat) : List Bit := if r = 0 then (pairsOf bs).map (·.1) else (pairsOf bs).map (·.2)

theorem inputsOf_length (bs : List Bit) (r : Nat) : (inputsOf bs r).length = bs.length / 2 := by
  unfold inputsOf; split <;> simp [pairsOf_length]

theorem bitAt_inputsOf {bs : List Bit} {r j : Nat} (hr : r < 2) (hj : j < bs.length / 2) :
    bitAt (inputsOf bs r) j = bitAt bs (2 * j + r) := by
  rw [bitAt_eq_getElem (by rw [inputsOf_length]; exact hj)]
  rcases (show r = 0 ∨ r = 1 by omega) with rfl | rfl <;> simp [inputsOf, pairsOf_eq_map]

/-- Chain element `2j + r` is what register `r` holds last after its first `j` inputs. -/
theorem bitAt_chainB (n : Nat) (P bs : List Bit) {r j : Nat} (hr : r < 2) (hj : j < bs.length / 2) :
    bitAt (chainB n P bs) (2 * j + r) =
      bitAt (finalR n (tapsOf n P) (zeros n) ((inputsOf bs r).take j)) (n - 1) := by
  have h := bitAt_emissions n (tapsOf n P) (zeros n, zeros n) (pairsOf bs) (j := j) (by rw [pairsOf_length]; exact hj)
  rw [finalPair_eq] at h
  simp only [List.map_take, emitted] at h
  rcases (show r = 0 ∨ r = 1 by omega) with rfl | rfl
  · exact h.1
  · exact h.2

/-- One step of a register is linear over XOR. -/
theorem shiftR_xor (n : Nat) (taps : List Nat) {R S : List Bit} (h : R.length = S.length) (x y : Bit) :
    shiftR n taps (List.zipWith xor R S) (xor x y) = List.zipWith xor (shiftR n taps R x) (shiftR n taps S y) := by
  apply ext_bitAt (by simp)
  intro i hi
  simp at hi
  have hz := bitAt_zipWith_xor h
  rw [bitAt_zipWith_xor (by simp), shiftR, shiftR, shiftR, bitAt_vecOf _ hi, bitAt_vecOf _ hi, bitAt_vecOf _ hi]
  split
  · simp only [foldTaps, hz, xorReduce_map_xor]
    generalize xorReduce _ = a
    generalize xorReduce _ = b
    cases x <;> cases y <;> cases a <;> cases b <;> rfl
  · exact hz _

end Sys2Proof.Machine
end

