-- ==== Sys2Proof/Laws/Effects.lean ====
section
/-! SUPPORT. What `exec` can do, said once: an instruction of engine A writes `T` and gives one response, both functions
of `n`, `P` and `T`; one of engine B writes `R1` and `R2` and gives one response, both functions of `n`, `P`, `R1` and
`R2` (10_state.md R16). -/

namespace Sys2Proof.Machine

/-- The vector a failed sequence command of engine A leaves: the one before it, or the stepped one. -/
def pickByPolicy {α : Type} (policy : SeqFailPolicy) (before stepped : α) : α :=
  match policy with
  | .atomic => before
  | .prefixed => stepped

/-- What an instruction makes of engine A's vector, and its response; nothing, for one of engine B. -/
def effectA (n : Nat) (P T : List Bit) : Instr → List Bit × Response
  | .aReset => (zeros n, .ok .nothing)
  | .aAdvance v =>
    match bitOf v with
    | some b => (advanceT n P T b, .ok (.vector (advanceT n P T b)))
    | none => (T, .failed .invalidInput { value := v, index := none })
  | .aRun op =>
    match checkSeq op with
    | .proper bs => (finalT n P T bs, .ok (.snapshots (trajectory n P T bs)))
    | .improper good info => (pickByPolicy Config.seqFailPolicy T (finalT n P T good), .failed .invalidInput info)
  | .aSigchain op =>
    match checkSeq op with
    | .proper bs => (finalT n P (zeros n) bs, .ok (.bits (chainA n P bs)))
    | .improper good info => (pickByPolicy Config.seqFailPolicy T (finalT n P (zeros n) good), .failed .invalidInput info)
  | .bReset => (T, .ok .nothing)
  | .bStep2 _ _ => (T, .ok .nothing)
  | .bSigchain _ => (T, .ok .nothing)

/-- What an instruction makes of engine B's pair, and its response; nothing, for one of engine A. -/
def effectB (n : Nat) (P : List Bit) (r : List Bit × List Bit) : Instr → (List Bit × List Bit) × Response
  | .bReset => ((zeros n, zeros n), .ok .nothing)
  | .bStep2 x0 x1 =>
    match bitOf x0, bitOf x1 with
    | some a, some b => (shiftPair n (tapsOf n P) r (a, b), .ok (.pair (emitted n r.1) (emitted n r.2)))
    | none, _ => (r, .failed .invalidInput { value := x0, index := none })
    | some _, none => (r, .failed .invalidInput { value := x1, index := none })
  | .bSigchain op =>
    match checkSeq (consumed op) with
    | .proper bs => (finalPair n (tapsOf n P) (zeros n, zeros n) (pairsOf bs), .ok (.bits (chainB n P bs)))
    | .improper good info =>
      (pickByPolicy Config.seqFailPolicy r (finalPair n (tapsOf n P) (zeros n, zeros n) (pairsOf good)),
        .failed .invalidInput info)
  | .aReset => (r, .ok .nothing)
  | .aAdvance _ => (r, .ok .nothing)
  | .aRun _ => (r, .ok .nothing)
  | .aSigchain _ => (r, .ok .nothing)

/-- Everything an instruction of engine A can do. -/
theorem exec_engineA {i : Instr} (h : i.onEngineA = true) (s : State) : exec i s =
    .next ((s.withT (effectA s.n s.P s.T i).1).respond (effectA s.n s.P s.T i).2) := by
  cases i with
  | aReset => rfl
  | aAdvance v =>
    simp only [exec, execAAdvance, effectA]
    cases bitOf v <;> rfl
  | aRun op =>
    cases ho : checkSeq op with
    | proper bs => simp [exec, execARun, effectA, ho]
    | improper good info =>
      simp only [exec, execARun, effectA, ho]
      cases Config.seqFailPolicy <;> rfl
  | aSigchain op =>
    cases ho : checkSeq op with
    | proper bs => simp [exec, execASigchain, effectA, ho]
    | improper good info =>
      simp only [exec, execASigchain, effectA, ho]
      cases Config.seqFailPolicy <;> rfl
  | bReset => simp [Instr.onEngineA] at h
  | bStep2 _ _ => simp [Instr.onEngineA] at h
  | bSigchain _ => simp [Instr.onEngineA] at h

/-- Everything an instruction of engine B can do. -/
theorem exec_engineB {i : Instr} (h : i.onEngineA = false) (s : State) : exec i s =
    .next ((s.withPair (effectB s.n s.P (s.R1, s.R2) i).1).respond (effectB s.n s.P (s.R1, s.R2) i).2) := by
  cases i with
  | bReset => rfl
  | bStep2 x0 x1 =>
    cases h0 : bitOf x0 <;> cases h1 : bitOf x1 <;> simp [exec, execBStep2, effectB, h0, h1] <;> rfl
  | bSigchain op =>
    cases ho : checkSeq (consumed op) with
    | proper bs => simp [exec, execBSigchain, effectB, ho]; rfl
    | improper good info =>
      simp only [exec, execBSigchain, effectB, ho]
      cases Config.seqFailPolicy <;> rfl
  | aReset => simp [Instr.onEngineA] at h
  | aAdvance _ => simp [Instr.onEngineA] at h
  | aRun _ => simp [Instr.onEngineA] at h
  | aSigchain _ => simp [Instr.onEngineA] at h

theorem effectA_length {n : Nat} (P : List Bit) {T : List Bit} (hT : T.length = n) (i : Instr) :
    (effectA n P T i).1.length = n := by
  cases i with
  | aReset => simp [effectA]
  | aAdvance v => cases hv : bitOf v <;> simp [effectA, hv, hT]
  | aRun op =>
    cases ho : checkSeq op <;> simp only [effectA, ho]
    · exact finalT_length P hT _
    · cases Config.seqFailPolicy
      · exact hT
      · exact finalT_length P hT _
  | aSigchain op =>
    cases ho : checkSeq op <;> simp only [effectA, ho]
    · exact finalT_length P (zeros_length n) _
    · cases Config.seqFailPolicy
      · exact hT
      · exact finalT_length P (zeros_length n) _
  | bReset => exact hT
  | bStep2 _ _ => exact hT
  | bSigchain _ => exact hT

theorem finalPair_length {n : Nat} (taps : List Nat) {r : List Bit × List Bit} (h1 : r.1.length = n)
    (h2 : r.2.length = n) (xs : List (Bit × Bit)) :
    (finalPair n taps r xs).1.length = n ∧ (finalPair n taps r xs).2.length = n := by
  rw [finalPair_eq]
  exact ⟨finalR_length taps h1 _, finalR_length taps h2 _⟩

theorem effectB_length {n : Nat} (P : List Bit) {r : List Bit × List Bit} (h1 : r.1.length = n) (h2 : r.2.length = n)
    (i : Instr) : (effectB n P r i).1.1.length = n ∧ (effectB n P r i).1.2.length = n := by
  have hz : (zeros n, zeros n).1.length = n ∧ (zeros n, zeros n).2.length = n := by simp
  cases i with
  | bReset => exact hz
  | bStep2 x0 x1 => cases h0 : bitOf x0 <;> cases h1' : bitOf x1 <;> simp [effectB, h0, h1', h1, h2, shiftPair]
  | bSigchain op =>
    cases ho : checkSeq (consumed op) <;> simp only [effectB, ho]
    · exact finalPair_length _ hz.1 hz.2 _
    · cases Config.seqFailPolicy
      · exact ⟨h1, h2⟩
      · exact finalPair_length _ hz.1 hz.2 _
  | aReset => exact ⟨h1, h2⟩
  | aAdvance _ => exact ⟨h1, h2⟩
  | aRun _ => exact ⟨h1, h2⟩
  | aSigchain _ => exact ⟨h1, h2⟩

end Sys2Proof.Machine
end

