-- ==== Sys2Proof/Laws/MaskGenerator.lean ====
section
/-! SUPPORT. What the mask generator's operations do, said once: the masks are the sequences of weight `k`, each once; a
draw arranges them; applying a mask flips exactly its ones, in the window. -/

namespace Sys2Proof.Machine

/-! ### The masks -/

theorem masks_zero (w : Nat) : masks w 0 = [List.replicate w false] := by cases w <;> rfl

theorem masks_length (w k : Nat) : (masks w k).length = w.choose k := by
  induction w generalizing k with
  | zero => cases k <;> rfl
  | succ w ih =>
    cases k with
    | zero => simp [masks_zero]
    | succ k => simp [masks, ih, Nat.choose_succ_succ]

/-- The masks are the sequences of length `w` with exactly `k` ones. -/
theorem mem_masks {w k : Nat} {m : List Bit} : m ∈ masks w k ↔ m.length = w ∧ m.count true = k := by
  induction w generalizing k m with
  | zero =>
    cases k with
    | zero => simp [masks]; rintro rfl; rfl
    | succ k => simp [masks]; rintro rfl; simp
  | succ w ih =>
    cases k with
    | zero =>
      rw [masks_zero]
      simp only [List.mem_singleton, List.count_eq_zero]
      constructor
      · rintro rfl; simp
      · rintro ⟨h1, h2⟩
        exact List.eq_replicate_iff.2 ⟨h1, fun b hb => by cases b <;> simp_all⟩
    | succ k =>
      cases m with
      | nil => simp [masks]
      | cons b m => cases b <;> simp [masks, ih]

theorem masks_nodup (w k : Nat) : (masks w k).Nodup := by
  induction w generalizing k with
  | zero => cases k <;> simp [masks]
  | succ w ih =>
    cases k with
    | zero => simp [masks_zero]
    | succ k =>
      rw [masks, List.nodup_append]
      refine ⟨(ih k).map fun _ _ h => (List.cons.inj h).2, (ih (k + 1)).map fun _ _ h => (List.cons.inj h).2, ?_⟩
      simp only [List.mem_map]
      rintro _ ⟨a, -, rfl⟩ _ ⟨b, -, rfl⟩ h
      cases h

/-- The masks with no one among their first `a` elements. -/
theorem countP_masks_suffix (a h k : Nat) :
    (masks (a + h) k).countP (fun m => (m.take a).all (! ·)) = h.choose k := by
  induction a generalizing k with
  | zero => simp [masks_length]
  | succ a ih =>
    rw [show a + 1 + h = a + h + 1 by omega]
    cases k with
    | zero => simp [masks_zero, List.take_replicate]
    | succ k =>
      rw [masks, List.countP_append, List.countP_map, List.countP_map, ← ih (k + 1)]
      simp [Function.comp_def]

/-! ### The order of generation -/

/-- A draw gives a permutation. -/
theorem arrange_perm (draw : Nat → Nat) (l : List (List Bit)) : (arrange draw l).Perm l := by
  induction l with
  | nil => exact .nil
  | cons x xs ih =>
    refine (List.perm_insertIdx _ _ ?_).trans (ih.cons x)
    rw [ih.length_eq]
    exact Nat.le_of_lt_succ (Nat.mod_lt _ (Nat.succ_pos _))

/-- Only the draws for fewer masks than there are count. -/
theorem arrange_congr {draw draw' : Nat → Nat} {l : List (List Bit)} (h : ∀ j < l.length, draw j = draw' j) :
    arrange draw l = arrange draw' l := by
  induction l with
  | nil => rfl
  | cons x xs ih =>
    rw [arrange, arrange, ih fun j hj => h j (Nat.lt_succ_of_lt hj), h xs.length (Nat.lt_succ_self _)]

@[simp] theorem arrange_singleton (draw : Nat → Nat) (x : List Bit) : arrange draw [x] = [x] := by
  simp [arrange, Nat.mod_one]

/-! ### Applying a mask -/

@[simp] theorem flipBits_length (v m : List Bit) : (flipBits v m).length = v.length := by
  induction v generalizing m with
  | nil => cases m <;> rfl
  | cons b v ih => cases m <;> simp [flipBits, ih]

/-- A flip is an XOR. -/
theorem flipBits_eq_zipWith {v m : List Bit} (h : v.length = m.length) : flipBits v m = List.zipWith xor v m := by
  induction v generalizing m with
  | nil => cases m with
    | nil => rfl
    | cons _ _ => simp at h
  | cons b v ih =>
    cases m with
    | nil => simp at h
    | cons c m =>
      rw [flipBits, List.zipWith_cons_cons, ih (by simpa using h)]
      cases b <;> cases c <;> rfl

@[simp] theorem applyMask_length (ref m : List Bit) (w : Nat) : (applyMask ref m w).length = ref.length := by
  simp [applyMask]

/-- The constant prefix is unchanged. -/
theorem applyMask_take (ref m : List Bit) (w : Nat) :
    (applyMask ref m w).take (ref.length - w) = ref.take (ref.length - w) := by
  simp [applyMask]

/-- The window is XORed with the mask. -/
theorem applyMask_drop {ref m : List Bit} {w : Nat} (hw : w ≤ ref.length) (hm : m.length = w) :
    (applyMask ref m w).drop (ref.length - w) = List.zipWith xor (ref.drop (ref.length - w)) m := by
  rw [applyMask, List.drop_append, flipBits_eq_zipWith (by simp; omega)]
  simp

theorem errorCount_natCast {k : Nat} (h : k ≤ 4) : errorCount k = some k := by
  simp [errorCount, Config.maxErrors]; omega

theorem errorCount_outside {k : Int} (h : k < 0 ∨ 4 < k) : errorCount k = none := by
  have : ¬ (0 ≤ k ∧ k ≤ (Config.maxErrors : Int)) := by simp only [Config.maxErrors]; omega
  rw [errorCount, if_neg this]

/-- A candidate is the reference XORed with the mask, put at its end. -/
theorem applyMask_eq_xor {ref m : List Bit} {w : Nat} (hw : w ≤ ref.length) (hm : m.length = w) :
    applyMask ref m w = List.zipWith xor ref (List.replicate (ref.length - w) false ++ m) := by
  rw [applyMask, flipBits_eq_zipWith (by simp; omega)]
  conv_rhs => rw [← List.take_append_drop (ref.length - w) ref]
  rw [List.zipWith_append (by simp)]
  congr 1
  have := zipWith_xor_zeros (ref.take (ref.length - w))
  rw [List.length_take_of_le (by omega)] at this
  rw [List.take_append_drop]
  exact this.symm

/-- Two sequences of one length differ in as many positions as their XOR has ones. -/
theorem differences_eq_count {x y : List Bit} (h : x.length = y.length) :
    differences x y = (List.zipWith xor x y).count true := by
  have : (fun j => bitAt x j != bitAt y j) = fun j => bitAt (List.zipWith xor x y) j := by
    funext j; rw [bitAt_zipWith_xor h]
  rw [differences, this, show x.length = (List.zipWith xor x y).length by simp [h]]
  generalize List.zipWith xor x y = z
  induction z with
  | nil => rfl
  | cons b z ih =>
    rw [List.length_cons, List.range_succ_eq_map, List.countP_cons, List.countP_map,
      show (fun j => bitAt (b :: z) j) ∘ Nat.succ = fun j => bitAt z j from rfl, ih]
    cases b <;> simp

/-- GENMASKS where it completes. -/
theorem genMasks_proper (s : State) {ref : List Bit} {k : Nat} {mode : ChannelMode} (hk : k ≤ 4)
    (hw : windowWidth mode ≤ ref.length) : genMasks (intsOf ref) k mode s =
      .next (s.respond (.ok (.sequences
        (candidates (Config.genOrder (windowWidth mode) k) ref k (windowWidth mode))))) := by
  simp only [genMasks, errorCount_natCast hk, checkSeq_intsOf]
  rw [if_neg (by omega)]
  rfl

end Sys2Proof.Machine
end

