-- ==== Sys2Proof/Laws/PerInstr.lean ====
section
/-! SUPPORT. The family TableRow: the command word of a well-formed instruction lies in its row of the table of
30_encoding.md R37. -/

namespace Sys2Proof.Laws.TableRow

/-- Under the row's mask, the word is the row's match. -/
def Statement (i : Instr) : Prop := i.wellFormed = true → (encode i).1 &&& rowMask i = rowMatch i

theorem aReset : Statement .aReset := fun _ => rfl

theorem aAdvance (bit : Int) : Statement (.aAdvance bit) := by
  intro h
  simp only [Instr.wellFormed, decide_eq_true_eq] at h
  rcases h with rfl | rfl <;> decide

theorem aRun (s : List Int) : Statement (.aRun s) := fun _ => by
  simp only [encode, encodeWord, rowMask, rowMatch]; decide

theorem aSigchain (s : List Int) : Statement (.aSigchain s) := fun _ => by
  simp only [encode, encodeWord, rowMask, rowMatch]; decide

theorem bReset : Statement .bReset := fun _ => rfl

theorem bStep2 (x0 x1 : Int) : Statement (.bStep2 x0 x1) := by
  intro h
  simp only [Instr.wellFormed, Bool.and_eq_true, decide_eq_true_eq] at h
  rcases h with ⟨rfl | rfl, rfl | rfl⟩ <;> decide

theorem bSigchain (s : List Int) : Statement (.bSigchain s) := fun _ => by
  simp only [encode, encodeWord, rowMask, rowMatch]; decide

end Sys2Proof.Laws.TableRow
end

