-- ==== Sys2Proof/Laws/Step.lean ====
section
/-! SUPPORT. What a step can do, said once: it takes the next request, and changes only the registers, REF and the
responses. -/

namespace Sys2Proof.Machine

/-- A step that answers a next state has taken a request. -/
theorem step_next {s t : State} (h : step s = .next t) :
    ∃ r rest, s.pending = r :: rest ∧ perform r (s.withPending rest) = .next t := by
  unfold step takeNext at h
  cases hp : s.pending with
  | nil => rw [hp] at h; cases h
  | cons r rest => rw [hp] at h; exact ⟨r, rest, rfl, h⟩

/-- What no operation changes but through the registers, REF and the responses; and that it keeps the lengths. -/
structure Follows (s t : State) : Prop where
  n : t.n = s.n
  P : t.P = s.P
  pending : t.pending = s.pending
  T_length : s.T.length = s.n → t.T.length = s.n
  R1_length : s.R1.length = s.n → s.R2.length = s.n → t.R1.length = s.n
  R2_length : s.R1.length = s.n → s.R2.length = s.n → t.R2.length = s.n
  responses : ∃ l, t.responses = s.responses ++ l ∧ l.length ≤ 1

/-- Every instruction follows. -/
theorem exec_follows {i : Instr} {s t : State} (h : exec i s = .next t) : Follows s t ∧ t.REF = s.REF := by
  cases he : i.onEngineA with
  | true =>
    rw [exec_engineA he] at h
    cases h
    exact ⟨⟨rfl, rfl, rfl, fun hT => effectA_length _ hT i, fun h1 _ => h1, fun _ h2 => h2, _, rfl, Nat.le_refl 1⟩, rfl⟩
  | false =>
    rw [exec_engineB he] at h
    cases h
    exact ⟨⟨rfl, rfl, rfl, id, fun h1 h2 => (effectB_length _ h1 h2 i).1, fun h1 h2 => (effectB_length _ h1 h2 i).2, _,
      rfl, Nat.le_refl 1⟩, rfl⟩

theorem afterSignature_single (s : State) (c : List Bit) :
    s.afterSignature .single c = s.withT (finalT s.n s.P (zeros s.n) c) := rfl

theorem afterSignature_dual (s : State) (c : List Bit) :
    s.afterSignature .dual c = s.withPair (finalPair s.n s.taps (zeros s.n, zeros s.n) (pairsOf c)) := rfl

/-- Evaluating candidates with engine A writes `T` alone. -/
theorem evaluateAll_single (s : State) (cs : List (List Bit)) :
    ∃ v, s.evaluateAll .single cs = s.withT v ∧ (s.T.length = s.n → v.length = s.n) := by
  induction cs generalizing s with
  | nil => exact ⟨s.T, rfl, id⟩
  | cons c cs ih =>
    obtain ⟨v, hv, hl⟩ := ih (s.afterSignature .single c)
    exact ⟨v, by rw [State.evaluateAll, hv]; rfl, fun _ => hl (finalT_length _ (zeros_length _) _)⟩

/-- Evaluating candidates with engine B writes `R1` and `R2` alone. -/
theorem evaluateAll_dual (s : State) (cs : List (List Bit)) :
    ∃ r, s.evaluateAll .dual cs = s.withPair r ∧
      (s.R1.length = s.n → s.R2.length = s.n → r.1.length = s.n ∧ r.2.length = s.n) := by
  induction cs generalizing s with
  | nil => exact ⟨(s.R1, s.R2), rfl, fun h1 h2 => ⟨h1, h2⟩⟩
  | cons c cs ih =>
    obtain ⟨r, hr, hl⟩ := ih (s.afterSignature .dual c)
    have hz := finalPair_length (n := s.n) s.taps (r := (zeros s.n, zeros s.n)) (zeros_length _) (zeros_length _) (pairsOf c)
    exact ⟨r, by rw [State.evaluateAll, hr]; rfl, fun _ _ => hl hz.1 hz.2⟩

/-- Every request follows, and only a new session writes REF. -/
theorem perform_follows {r : Request} {s t : State} (h : perform r s = .next t) :
    Follows s t ∧ ((∀ ref, r ≠ .newSession ref) → t.REF = s.REF) := by
  have same : Follows s s := ⟨rfl, rfl, rfl, id, fun h1 _ => h1, fun _ h2 => h2, [], by simp, by simp⟩
  have one (x : Response) : Follows s (s.respond x) :=
    ⟨rfl, rfl, rfl, id, fun h1 _ => h1, fun _ h2 => h2, [x], rfl, Nat.le_refl 1⟩
  cases r with
  | command c operand =>
    simp only [perform, runWord] at h
    cases hd : decode c operand with
    | instr i => rw [hd] at h; exact ⟨(exec_follows h).1, fun _ => (exec_follows h).2⟩
    | reserved why => rw [hd] at h; cases h
  | call i => exact ⟨(exec_follows h).1, fun _ => (exec_follows h).2⟩
  | newSession ref =>
    simp only [perform, newSession] at h
    split at h <;> cases h
    exact ⟨⟨rfl, rfl, rfl, id, fun h1 _ => h1, fun _ h2 => h2, [], by simp, by simp⟩, fun hr => absurd rfl (hr ref)⟩
  | genMasks ref k mode =>
    simp only [perform, genMasks] at h
    split at h
    · cases h; exact ⟨one _, fun _ => rfl⟩
    · split at h
      · cases h
      · split at h <;> cases h
        exact ⟨one _, fun _ => rfl⟩
  | computeAliases mode k =>
    simp only [perform, computeAliases] at h
    split at h
    · cases h; exact ⟨one _, fun _ => rfl⟩
    · split at h
      · cases h
      · cases mode with
        | single =>
          obtain ⟨v, hv, hl⟩ := evaluateAll_single (s.afterSignature .single s.REF)
            (candidates (Config.genOrder (windowWidth .single) _) s.REF _ (windowWidth .single))
          rw [hv] at h
          cases h
          exact ⟨⟨rfl, rfl, rfl, fun _ => hl (finalT_length _ (zeros_length _) _), fun h1 _ => h1, fun _ h2 => h2, _, rfl,
            Nat.le_refl 1⟩, fun _ => rfl⟩
        | dual =>
          obtain ⟨q, hq, hl⟩ := evaluateAll_dual (s.afterSignature .dual s.REF)
            (candidates (Config.genOrder (windowWidth .dual) _) s.REF _ (windowWidth .dual))
          rw [hq] at h
          cases h
          have hz := finalPair_length (n := s.n) s.taps (r := (zeros s.n, zeros s.n)) (zeros_length _) (zeros_length _)
            (pairsOf s.REF)
          exact ⟨⟨rfl, rfl, rfl, id, fun _ _ => (hl hz.1 hz.2).1, fun _ _ => (hl hz.1 hz.2).2, _, rfl, Nat.le_refl 1⟩,
            fun _ => rfl⟩
  | resetLine =>
    cases h
    exact ⟨⟨rfl, rfl, rfl, fun _ => zeros_length _, fun _ _ => zeros_length _, fun _ _ => zeros_length _, [], by simp,
      by simp⟩, fun _ => rfl⟩

/-- COMPUTE_ALIASES where it completes. -/
theorem computeAliases_legal (s : State) {k : Nat} {mode : ChannelMode} (hk : k ≤ 4)
    (hw : windowWidth mode ≤ s.REF.length) : computeAliases mode k s =
      let cands := candidates (Config.genOrder (windowWidth mode) k) s.REF k (windowWidth mode)
      .next (((s.afterSignature mode s.REF).evaluateAll mode cands).respond
        (.ok (.sequences (aliasesAmong s.n s.P mode (signature s.n s.P mode s.REF) cands)))) := by
  simp only [computeAliases, errorCount_natCast hk]
  rw [if_neg (by omega)]
  rfl

/-- Evaluating candidates gives no response of its own (log 17). -/
theorem evaluateAll_responses (s : State) (mode : ChannelMode) (c : List Bit) (cs : List (List Bit)) :
    ((s.afterSignature mode c).evaluateAll mode cs).responses = s.responses := by
  cases mode with
  | single => obtain ⟨v, h, -⟩ := evaluateAll_single (s.afterSignature .single c) cs; rw [h]; rfl
  | dual => obtain ⟨v, h, -⟩ := evaluateAll_dual (s.afterSignature .dual c) cs; rw [h]; rfl

end Sys2Proof.Machine
end

