-- ==== Sys2Proof/Tests/Slice0.lean ====
section
/-! SUPPORT. Tests of the model: expected values are the spec's (95_test_vectors.md V1 to V11, PR1 to PR6, and the
patterns of 30_encoding.md R37), never the model's. Then a witness for the hypotheses of each statement. -/

namespace Sys2Proof.Tests

open Sys2Proof.Machine

/-- Bits written as the spec writes them. -/
def bits (v : List Nat) : List Bit := v.map (· == 1)

/-- An instance with this polynomial and these registers. -/
def machine (P T R1 R2 : List Nat) : State :=
  { n := P.length, P := bits P, T := bits T, R1 := bits R1, R2 := bits R2, REF := [], pending := [], responses := [] }

/-- The polynomials of the spec's examples. -/
def P8 : List Nat := [1, 0, 1, 0, 0, 1, 1, 0]
def P4 : List Nat := [1, 0, 0, 1]

/-- The reference sequence of the spec's examples. -/
def REF16 : List Nat := [1, 0, 1, 1, 0, 0, 1, 0, 1, 1, 0, 1, 0, 0, 0, 1]

/-- A fresh instance. -/
def fresh (P : List Nat) : State := machine P (P.map fun _ => 0) (P.map fun _ => 0) (P.map fun _ => 0)

/-- The next state, where there is one (outcomes themselves have no decidable equality). -/
def nextOf : Host.Outcome State Fault Refusal → Option State
  | .next t => some t
  | .fault _ => none
  | .refused _ => none

/-- The reason of a refusal, where there is one. -/
def refusalOf : Host.Outcome State Fault Refusal → Option Refusal
  | .next _ => none
  | .fault _ => none
  | .refused r => some r

/-! ## Well-formedness: a call whose immediate operand is no bit has no word -/

theorem test_wellFormed_refuses_advance_two : Instr.wellFormed (.aAdvance 2) = false := by decide
theorem test_wellFormed_refuses_first_of_step : Instr.wellFormed (.bStep2 2 0) = false := by decide
theorem test_wellFormed_refuses_second_of_step : Instr.wellFormed (.bStep2 0 (-1)) = false := by decide

/-! ## Decoding, from 30_encoding.md R36 and R37 -/

theorem test_decode_engineA : decode 0b00010000#8 [] = .instr .aReset ∧
    decode 0b00100000#8 [] = .instr (.aAdvance 0) ∧ decode 0b00100001#8 [] = .instr (.aAdvance 1) ∧
    decode 0b00110000#8 [1, 7] = .instr (.aRun [1, 7]) ∧
    decode 0b01000000#8 [1, 7] = .instr (.aSigchain [1, 7]) := by decide

theorem test_decode_engineB : decode 0b10010000#8 [] = .instr .bReset ∧
    decode 0b10100001#8 [] = .instr (.bStep2 1 0) ∧ decode 0b10100010#8 [] = .instr (.bStep2 0 1) ∧
    decode 0b11000000#8 [1, 7] = .instr (.bSigchain [1, 7]) := by decide

/-- V7: reserved words, each for the reason the vector gives. -/
theorem test_decode_reserved : decode 0x00#8 [] = .reserved .operation ∧ decode 0xFF#8 [] = .reserved .operation ∧
    decode 0x24#8 [] = .reserved .zField ∧ decode 0xB0#8 [] = .reserved .noRunOnB ∧
    decode 0x31#8 [] = .reserved .dataBit ∧ decode 0x22#8 [] = .reserved .dataBit := by decide

theorem test_encode_immediates : (encode (.aAdvance 1)).1 = 0x21#8 ∧ (encode (.bStep2 1 0)).1 = 0xA1#8 ∧
    (encode (.bStep2 0 1)).1 = 0xA2#8 := by decide

theorem test_table_word : decodeTableWord 8 0xA2 = some (.bStep2 0 1) ∧ decodeTableWord 8 0xB0 = none ∧
    decodeTableWord 16 0x10 = none := by decide

/-! ## Engine A -/

/-- V3(h): the registers of engine B are not touched. -/
theorem test_aReset : nextOf (exec .aReset (machine P4 [0, 1, 1, 1] [1, 1, 0, 0] [0, 1, 0, 0])) =
    some { machine P4 [0, 0, 0, 0] [1, 1, 0, 0] [0, 1, 0, 0] with responses := [.ok .nothing] } := by decide

/-- V1, row 8. -/
theorem test_aAdvance_feeds_back : nextOf (exec (.aAdvance 0) { fresh P8 with T := bits [1, 1, 1, 0, 0, 1, 0, 0] }) =
    some { fresh P8 with T := bits [0, 1, 1, 1, 0, 0, 1, 1], responses := [.ok (.vector (bits [0, 1, 1, 1, 0, 0, 1, 1]))] } := by
  decide

/-- V11, row 1. -/
theorem test_aAdvance_two_fails : nextOf (exec (.aAdvance 2) (machine P4 [1, 0, 1, 1] [0, 0, 0, 0] [0, 0, 0, 0])) =
    some { machine P4 [1, 0, 1, 1] [0, 0, 0, 0] [0, 0, 0, 0] with
      responses := [.failed .invalidInput { value := 2, index := none }] } := by decide

/-- V1, the acceptance trace. -/
theorem test_aRun_acceptance_trace : nextOf (exec (.aRun [1, 0, 1, 1, 0, 0, 1, 0]) (fresh P8)) =
    some { fresh P8 with T := bits [0, 1, 1, 1, 0, 0, 1, 1], responses := [.ok (.snapshots
      [bits [0, 0, 0, 0, 0, 0, 0, 0], bits [0, 0, 0, 0, 0, 0, 0, 1], bits [1, 0, 0, 0, 0, 0, 0, 0],
       bits [0, 1, 0, 0, 0, 0, 0, 0], bits [0, 0, 1, 0, 0, 0, 0, 1], bits [1, 0, 0, 1, 0, 0, 0, 1],
       bits [1, 1, 0, 0, 1, 0, 0, 1], bits [1, 1, 1, 0, 0, 1, 0, 0], bits [0, 1, 1, 1, 0, 0, 1, 1]])] } := by decide

/-- V3(f): a run does not reset. -/
theorem test_aRun_continues : nextOf (exec (.aRun [0, 0]) (machine P4 [1, 0, 1, 1] [0, 0, 0, 0] [0, 0, 0, 0])) =
    some { machine P4 [0, 1, 1, 1] [0, 0, 0, 0] [0, 0, 0, 0] with
      responses := [.ok (.snapshots [bits [1, 0, 1, 1], bits [1, 1, 0, 0], bits [0, 1, 1, 1]])] } := by decide

/-- PR2, line 1: a chain resets first. -/
theorem test_aSigchain_resets : nextOf (exec (.aSigchain [1, 1, 0]) (machine P4 [1, 1, 1, 1] [0, 0, 0, 0] [0, 0, 0, 0])) =
    some { machine P4 [0, 1, 0, 1] [0, 0, 0, 0] [0, 0, 0, 0] with
      responses := [.ok (.bits (bits [0, 0, 1, 0]))] } := by decide

/-- V3(b): for `n = 1` the last input shows. -/
theorem test_aSigchain_width_one : nextOf (exec (.aSigchain [1, 0, 1, 1]) (fresh [1])) =
    some { fresh [1] with T := bits [1], responses := [.ok (.bits (bits [0, 1, 1, 0, 1]))] } := by decide

/-- V11, row 4, under each value of the policy: the state apart from the response. -/
theorem test_aRun_failure_policies : checkSeq [1, 0, 2] = .improper (bits [1, 0]) { value := 2, index := some 2 } ∧
    afterFailure .atomic (fresh P4) ((fresh P4).stepA (bits [1, 0])) = fresh P4 ∧
    afterFailure .prefixed (fresh P4) ((fresh P4).stepA (bits [1, 0])) = { fresh P4 with T := bits [1, 0, 0, 1] } := by
  decide

/-- V11, row 5, under `prefix`: the reset has been done. -/
theorem test_aSigchain_failure_prefix :
    ((machine P4 [1, 0, 1, 1] [0, 0, 0, 0] [0, 0, 0, 0]).clearA.stepA (bits [1])).T = bits [0, 0, 0, 1] := by decide

/-! ## Engine B -/

/-- PR3, line 1; `T` is not touched. -/
theorem test_bReset : nextOf (exec .bReset (machine P4 [1, 0, 1, 1] [1, 0, 1, 0] [0, 0, 1, 1])) =
    some { machine P4 [1, 0, 1, 1] [0, 0, 0, 0] [0, 0, 0, 0] with responses := [.ok .nothing] } := by decide

/-- V4, step 8: an asymmetric polynomial tells the tap readings apart. -/
theorem test_bStep2_taps_by_distance :
    nextOf (exec (.bStep2 1 0) (machine P8 [0, 0, 0, 0, 0, 0, 0, 0] [0, 1, 0, 1, 1, 1, 1, 1] [0, 1, 0, 0, 1, 0, 1, 0])) =
      some { machine P8 [0, 0, 0, 0, 0, 0, 0, 0] [0, 0, 1, 0, 1, 1, 1, 1] [1, 0, 1, 0, 0, 1, 0, 1] with
        responses := [.ok (.pair true false)] } := by decide

/-- V11, row 8: both operands bad. -/
theorem test_bStep2_two_fails : nextOf (exec (.bStep2 2 3) (machine P4 [0, 0, 0, 0] [1, 1, 0, 0] [0, 1, 0, 0])) =
    some { machine P4 [0, 0, 0, 0] [1, 1, 0, 0] [0, 1, 0, 0] with
      responses := [.failed .invalidInput { value := 2, index := none }] } := by decide

/-- V4, the whole chain. -/
theorem test_bSigchain_chain :
    nextOf (exec (.bSigchain [1, 0, 1, 1, 0, 0, 1, 0, 1, 1, 0, 1, 0, 0, 0, 1, 1, 0, 1, 1, 0, 1, 1, 0]) (fresh P8)) =
      some { machine P8 [0, 0, 0, 0, 0, 0, 0, 0] [0, 0, 0, 0, 0, 1, 0, 1] [0, 0, 0, 1, 0, 1, 0, 0] with
        responses := [.ok (.bits (bits
          [0, 0, 0, 0, 0, 0, 0, 0, 0, 0, 0, 0, 0, 0, 0, 0, 1, 0, 1, 1, 1, 0, 1, 1]))] } := by decide

/-- V5: a dirty instance, an odd length, and a last element that is no bit. -/
theorem test_bSigchain_odd_tail :
    nextOf (exec (.bSigchain [1, 1, 0, 1, 1, 0, 0, 0, 1, 0, 1, 1, 7]) (machine P4 [1, 0, 1, 1] [1, 0, 1, 0] [0, 0, 1, 1])) =
      some { machine P4 [1, 0, 1, 1] [0, 0, 0, 0] [0, 1, 0, 0] with
        responses := [.ok (.bits (bits [0, 0, 0, 0, 0, 0, 0, 0, 1, 1, 1, 0]))] } := by decide

/-- V11, row 6: the element at index 3 is reported, after one pair under `prefix`. -/
theorem test_bSigchain_failure_prefix :
    checkSeq (consumed [1, 1, 0, 2, 1, 1]) = .improper (bits [1, 1, 0]) { value := 2, index := some 3 } ∧
    ((machine P4 [0, 0, 0, 0] [1, 1, 0, 0] [0, 1, 0, 0]).clearB.stepB (bits [1, 1, 0])) =
      machine P4 [0, 0, 0, 0] [1, 0, 0, 0] [1, 0, 0, 0] := by decide

/-! ## State, construction, a step -/

/-- 95_test_vectors.md, conventions: the taps and the packing of P8, the taps of P4. -/
theorem test_taps_and_packing : (fresh P8).taps = [8, 6, 3, 2] ∧ (fresh P4).taps = [4, 1] ∧ pack (bits P8) = 0x65 := by
  decide

/-- V11, row 14, and a fresh instance. -/
theorem test_construct : refusalOf (construct 0 []) = some .badConstruction ∧
    refusalOf (construct 3 [1, 2, 0]) = some .badConstruction ∧ nextOf (construct 4 [1, 0, 0, 1]) = some (fresh P4) := by decide

/-- PR1, line 2, as the first step after reset. -/
theorem test_step_from_reset : nextOf (step (State.reset.withFetchWord 8 0x21)) =
    some { fresh P8 with T := bits [0, 0, 0, 0, 0, 0, 0, 1],
                          responses := [.ok (.vector (bits [0, 0, 0, 0, 0, 0, 0, 1]))] } := by decide

/-! ## The host-side procedures -/

/-- 42_mask_generator.md R80's example (V8(a)): indices 2 to 9 flipped in turn; a draw of zeros keeps the spec's order. -/
theorem test_genMasks_one_error : candidates (fun _ => 0) (bits [1, 0, 1, 1, 0, 0, 1, 0, 1, 1]) 1 8 =
    [bits [1, 0, 0, 1, 0, 0, 1, 0, 1, 1], bits [1, 0, 1, 0, 0, 0, 1, 0, 1, 1], bits [1, 0, 1, 1, 1, 0, 1, 0, 1, 1],
     bits [1, 0, 1, 1, 0, 1, 1, 0, 1, 1], bits [1, 0, 1, 1, 0, 0, 0, 0, 1, 1], bits [1, 0, 1, 1, 0, 0, 1, 1, 1, 1],
     bits [1, 0, 1, 1, 0, 0, 1, 0, 0, 1], bits [1, 0, 1, 1, 0, 0, 1, 0, 1, 0]] := by decide

/-- V8(b): 28 masks, the first and the last of the spec's order. -/
theorem test_genMasks_two_errors :
    (candidates (fun _ => 0) (bits [1, 0, 1, 1, 0, 0, 1, 0, 1, 1]) 2 8).length = 28 ∧
    (candidates (fun _ => 0) (bits [1, 0, 1, 1, 0, 0, 1, 0, 1, 1]) 2 8).head? = some (bits [1, 0, 0, 0, 0, 0, 1, 0, 1, 1]) ∧
    (candidates (fun _ => 0) (bits [1, 0, 1, 1, 0, 0, 1, 0, 1, 1]) 2 8).getLast? =
      some (bits [1, 0, 1, 1, 0, 0, 1, 0, 0, 0]) := by decide

/-- V9, mode `single`, P4, `k = 1`. -/
theorem test_aliases_single :
    signature 4 (bits P4) .single (bits REF16) = bits [0, 0, 1, 1, 1, 1, 0, 1, 0, 1, 0, 0, 0, 1, 1, 0, 1] ∧
    aliasesAmong 4 (bits P4) .single (signature 4 (bits P4) .single (bits REF16)) (candidates (fun _ => 0) (bits REF16) 1 8) =
      [bits [1, 0, 1, 1, 0, 0, 1, 0, 1, 1, 0, 1, 0, 0, 0, 0]] := by decide

/-- V10, mode `dual`, P4: the signature, and eight aliases for `k = 1`. -/
theorem test_aliases_dual :
    signature 4 (bits P4) .dual (bits REF16) = bits [0, 0, 0, 0, 0, 0, 0, 0, 1, 0, 0, 1, 0, 1, 1, 1] ∧
    (aliasesAmong 4 (bits P4) .dual (signature 4 (bits P4) .dual (bits REF16))
      (candidates (fun _ => 0) (bits REF16) 1 16)).length = 8 := by decide

/-- V11, rows 10 and 11. -/
theorem test_error_counts_outside : nextOf (genMasks [] 5 .single (fresh P4)) = some
      { fresh P4 with responses := [.failed .invalidArgument { value := 5, index := none }] } ∧
    nextOf (computeAliases .single (-1) (fresh P4)) = some
      { fresh P4 with responses := [.failed .invalidArgument { value := -1, index := none }] } := by decide

/-! ## Lines -/

/-- PR2, line 1, with a comment after it. -/
theorem test_readLine_bound : readLine ['c', ' ', '=', ' ', 'A', '.', 'S', 'I', 'G', 'C', 'H', 'A', 'I', 'N', ' ', '[', '1',
    ',', '1', ',', '0', ']', ' ', ';', ' ', 'x'] = some { binding := some ['c'], instr := .aSigchain [1, 1, 0] } := by decide

/-- PR3, line 4, and a bit operand that is neither `0` nor `1`. -/
theorem test_readLine_bits : readLine ['B', '.', 'S', 'T', 'E', 'P', '2', ' ', '1', ',', ' ', '0'] =
      some { binding := none, instr := .bStep2 1 0 } ∧
    readLine ['A', '.', 'A', 'D', 'V', 'A', 'N', 'C', 'E', ' ', '2'] = none := by decide

/-! ## Witnesses: concrete values that meet each statement's hypotheses, clause by clause -/

/-- An instance with a test session. -/
def withREF (s : State) (ref : List Nat) : State := { s with REF := bits ref }

theorem witness_EachRowOfTheTableSelectsItsCommand :
    0x10#8 &&& 0xFF#8 = 0x10#8 ∧ 0x21#8 &&& 0xFE#8 = 0x20#8 ∧ 0x30#8 &&& 0xFF#8 = 0x30#8 ∧
    0x40#8 &&& 0xFF#8 = 0x40#8 ∧ 0x90#8 &&& 0xFF#8 = 0x90#8 ∧ 0xA0#8 &&& 0xFC#8 = 0xA0#8 ∧
    0xA3#8 &&& 0xFC#8 = 0xA0#8 ∧ 0xC0#8 &&& 0xFF#8 = 0xC0#8 := by decide

theorem witness_DecodeAndEncodeAgree : Instr.wellFormed (.bStep2 1 1) = true ∧ Instr.wellFormed (.aRun [2]) = true ∧
    decode 0xA3#8 [] = .instr (.bStep2 1 1) := by decide

theorem witness_StepRunsTheIssuedCommand :
    { fresh P4 with pending := [.command 0xA2#8 [], .resetLine] }.pending = .command 0xA2#8 [] :: [.resetLine] ∧
    decode 0xA2#8 [] = .instr (.bStep2 0 1) ∧
    { fresh P4 with pending := [.call (.bStep2 0 7)] }.pending = .call (.bStep2 0 7) :: [] := by decide

theorem witness_ReservedWordsAndOnlyTheyAreRefused :
    { fresh P4 with pending := [.command 0x22#8 []] }.pending = .command 0x22#8 [] :: [] ∧
    (0x22#8).toNat ∉ [0x10, 0x20, 0x21, 0x30, 0x40, 0x90, 0xA0, 0xA1, 0xA2, 0xA3, 0xC0] ∧
    (0x21#8).toNat ∈ [0x10, 0x20, 0x21, 0x30, 0x40, 0x90, 0xA0, 0xA1, 0xA2, 0xA3, 0xC0] := by decide

theorem witness_StepKeepsTheInvariant : (State.reset.withFetchWord 8 0x21).Inv ∧
    (nextOf (step (State.reset.withFetchWord 8 0x21))).isSome = true := by decide

theorem witness_EveryCommandCompletesWithOneResponse :
    (Instr.aAdvance 1).OperandsProper ∧ ¬ (Instr.aAdvance 2).OperandsProper ∧
    (Instr.bSigchain [1, 0, 7]).OperandsProper ∧ ¬ (Instr.bSigchain [1, 7]).OperandsProper := by
  refine ⟨.inr rfl, show ¬ IsBit 2 by decide, ?_, fun h => absurd (h 1 (by decide) 7 rfl) (by decide)⟩
  intro t ht v hv
  match t, ht with
  | 0, _ => cases hv; decide
  | 1, _ => cases hv; decide

/-- The step of the last clause of TapsAreTheDistancesOfTheSetPositions as well. -/
theorem witness_ResponsesAreNeverChanged :
    (nextOf (step { fresh P4 with pending := [.resetLine] })).isSome = true := by decide

theorem witness_CommandWordsWithProperOperandsNeverFail :
    { fresh P4 with pending := [.command 0x30#8 [1, 0]] }.pending = .command 0x30#8 [1, 0] :: [] ∧ Proper [1, 0] ∧
    { fresh P4 with pending := [.command 0x30#8 [1, 0]] }.NoFailure ∧
    (nextOf (step { fresh P4 with pending := [.command 0x30#8 [1, 0]] })).isSome = true := by decide

theorem witness_TheEnginesAreDisjoint : (Instr.aRun []).onEngineA = true ∧ (Instr.bReset).onEngineA = false := by decide

theorem witness_OperationsOfTheTwoEnginesCommute :
    (Instr.aAdvance 1).onEngineA = true ∧ (Instr.bStep2 1 0).onEngineA = false := by decide

/-- The invariant alone: widths 1, 4 and 8, and the all-zero polynomial. It serves TapsAreTheDistancesOfTheSetPositions,
AAdvanceRotatesAndFeedsBack, BStep2ShiftsBothRegisters and EngineBComputesItsRecurrence. -/
theorem witness_Inv : (fresh [0]).Inv ∧ (fresh [1]).Inv ∧ (machine P4 [1, 0, 1, 1] [1, 1, 0, 0] [0, 1, 0, 0]).Inv ∧
    (fresh P8).Inv := by decide

/-- Also the hypotheses of BStep2FailsExactlyOnNonBits. -/
theorem witness_AAdvanceFailsExactlyOnNonBits : ¬ IsBit 2 ∧ ¬ IsBit (-1) ∧ IsBit 0 ∧ IsBit 1 ∧
    decode 0x21#8 [] = .instr (.aAdvance 1) ∧ ¬ (IsBit 1 ∧ IsBit 3) ∧ (IsBit 1 ∧ IsBit 0) ∧
    decode 0xA1#8 [] = .instr (.bStep2 1 0) := by decide

theorem witness_ARunReturnsTheTrajectory : (bits [1, 0])[1]? = some false ∧
    (nextOf (exec (.aRun (intsOf (bits [1, 0]))) (fresh P4))).map (·.responses) =
      some [.ok (.snapshots [bits [0, 0, 0, 0], bits [0, 0, 0, 1], bits [1, 0, 0, 1]])] := by decide

/-- One of the two policies holds, whichever it is; the operands are V11's rows 4 and 5. -/
theorem witness_EngineASequenceFailureFollowsThePolicy : ¬ IsBit 2 ∧
    (Config.seqFailPolicy = .atomic ∨ Config.seqFailPolicy = .prefixed) := by
  refine ⟨by decide, ?_⟩
  cases Config.seqFailPolicy <;> simp

/-- Also for EngineAIsLinear (the operands of V2's linearity, and empty ones). -/
theorem witness_EngineAComputesItsRecurrence : (fresh P8).Inv ∧ (fresh P8).T = List.replicate (fresh P8).n false ∧
    (fresh [1]).Inv ∧ (fresh [1]).T = List.replicate (fresh [1]).n false ∧
    (bits [1, 0, 1, 1, 0, 0, 1, 0]).length = (bits [0, 1, 1, 0, 1, 0, 0, 1]).length := by decide

theorem witness_ChainAShowsTheWrittenValues : (fresh P4).Inv ∧ 2 ≤ (fresh P4).n ∧ (fresh [1]).Inv ∧ (fresh [1]).n = 1 := by
  decide

/-- Width 2, where the first clause begins, and width 1; operands that differ in the last bit only, and earlier. -/
theorem witness_ChainAIsBlindToTheLastBitOnly : (fresh [1, 1]).Inv ∧ 2 ≤ (fresh [1, 1]).n ∧ (fresh [0]).Inv ∧
    (fresh [0]).n = 1 ∧ (bits [1, 0, 1]).length = (bits [1, 0, 0]).length ∧
    (bits [1, 0, 1]).dropLast = (bits [1, 0, 0]).dropLast ∧ (bits [1, 0, 1]).dropLast ≠ (bits [1, 1, 1]).dropLast := by decide

theorem witness_SignaturesObeyTheThreeLaws :
    (machine P4 [1, 1, 1, 1] [1, 0, 1, 0] [0, 0, 1, 1]).n = (fresh P4).n ∧
    (machine P4 [1, 1, 1, 1] [1, 0, 1, 0] [0, 0, 1, 1]).P = (fresh P4).P := by decide

/-- The empty operand is the first of even length. -/
theorem witness_BSigchainIgnoresAnOddTail :
    ([] : List Int).length % 2 = 0 ∧ ([1, 1, 0, 1] : List Int).length % 2 = 0 := by decide

/-- V11, row 6; and a bad element that is the last one consumed. -/
theorem witness_EngineBSequenceFailureFollowsThePolicy : ¬ IsBit 2 ∧
    (bits [1, 1, 0]).length < 2 * (((bits [1, 1, 0]).length + 1 + ([1, 1] : List Int).length) / 2) ∧
    (bits [1]).length < 2 * (((bits [1]).length + 1 + ([] : List Int).length) / 2) ∧
    (Config.seqFailPolicy = .atomic ∨ Config.seqFailPolicy = .prefixed) := by
  refine ⟨by decide, by decide, by decide, ?_⟩
  cases Config.seqFailPolicy <;> simp

/-- Also for EngineBIsLinear: two operands of one odd length that differ in the unpaired element. -/
theorem witness_ChainBIsBlindToTheTail : (fresh [1]).Inv ∧ (fresh P4).Inv ∧
    (bits [1, 0, 1]).length = (bits [1, 0, 0]).length ∧
    (bits [1, 0, 1]).take (2 * (3 / 2) - 2 * (fresh [1]).n) = (bits [1, 0, 0]).take (2 * (3 / 2) - 2 * (fresh [1]).n) := by
  decide

theorem witness_ConstructMakesAZeroedMachine : (1 ≤ 1 ∧ ([1] : List Int).length = 1 ∧ Proper [1]) ∧
    ¬ (1 ≤ 0 ∧ ([] : List Int).length = 0 ∧ Proper []) ∧ ¬ (1 ≤ 3 ∧ ([1, 2, 0] : List Int).length = 3 ∧ Proper [1, 2, 0]) ∧
    ¬ (1 ≤ 2 ∧ ([1] : List Int).length = 2 ∧ Proper [1]) := by decide

theorem witness_ResetLineZeroesTheRegisters :
    { machine P4 [1, 0, 1, 1] [1, 1, 0, 0] [0, 1, 0, 0] with pending := [.resetLine] }.pending = .resetLine :: [] := by
  decide

theorem witness_LinesAreReadBack : Instr.wellFormed (.bSigchain [1, 0, 1]) = true ∧
    (Instr.bSigchain [1, 0, 1]).OperandsProper ∧
    (∀ operand, Instr.bSigchain [1, 0, 1] = .bSigchain operand → Proper operand) ∧
    (∀ name, some ['c'] = some name → goodName name = true) := by
  have h : Proper [1, 0, 1] := by decide
  exact ⟨rfl, fun _ _ v hv => h v (List.mem_of_getElem? hv), fun operand ho => by cases ho; exact h,
    fun name hn => by cases hn; decide⟩

/-- The window exactly as long as the reference, at each end of the error counts. -/
theorem witness_GenMasksGivesEveryCandidateOnce : 0 ≤ 4 ∧ 4 ≤ 4 ∧
    windowWidth .single ≤ (bits [1, 0, 1, 1, 0, 0, 1, 0]).length ∧ windowWidth .dual ≤ (bits REF16).length := by decide

theorem witness_ErrorCountsOutsideTheRangeFail : ((-1 : Int) < 0 ∨ 4 < (-1 : Int)) ∧ ((5 : Int) < 0 ∨ 4 < (5 : Int)) ∧
    ((0 : Int) ≤ 0 ∧ (0 : Int) ≤ 4) ∧ ((0 : Int) ≤ 4 ∧ (4 : Int) ≤ 4) ∧ Proper (intsOf (bits REF16)) ∧
    windowWidth .dual ≤ (intsOf (bits REF16)).length ∧ windowWidth .dual ≤ (withREF (fresh P4) REF16).REF.length := by decide

theorem witness_ShortOrImproperReferencesAreRefused : ¬ Proper [1, 2] ∧ Proper [1, 0, 1, 1, 0, 0, 1] ∧
    ([1, 0, 1, 1, 0, 0, 1] : List Int).length < windowWidth .single ∧
    (withREF (fresh P4) [1, 0, 1]).REF.length < windowWidth .single ∧ (0 : Int) ≤ 4 ∧ (4 : Int) ≤ 4 := by decide

/-- Also for AliasesAreTheCandidatesWithTheReferenceSignature. -/
theorem witness_ZeroErrorsGiveTheReference : windowWidth .single ≤ (withREF (fresh P4) REF16).REF.length ∧
    windowWidth .dual ≤ (withREF (fresh P4) REF16).REF.length := by decide

/-- Also for AliasCountInDualMode. -/
theorem witness_AliasesInSingleMode : (withREF (fresh P4) REF16).Inv ∧ 2 ≤ (withREF (fresh P4) REF16).n ∧
    (withREF (fresh [1]) REF16).Inv ∧ (withREF (fresh [1]) REF16).n = 1 ∧
    8 ≤ (withREF (fresh P4) [1, 0, 1, 1, 0, 0, 1, 0]).REF.length ∧ 16 ≤ (withREF (fresh P4) REF16).REF.length := by decide

theorem witness_OnlyANewSessionWritesTheReference :
    { fresh P4 with pending := [.newSession [1, 0]] }.pending = .newSession (intsOf (bits [1, 0])) :: [] ∧
    { fresh P4 with pending := [.newSession [1, 2]] }.pending = .newSession [1, 2] :: [] ∧ ¬ Proper [1, 2] ∧
    (nextOf (step { fresh P4 with pending := [.genMasks [] 5 .dual] })).isSome = true := by decide

end Sys2Proof.Tests
end

section
/-! PROOFS. Construction: what CONSTRUCT answers on bits, that a constructed machine meets the invariant, and that the
reset state is one. -/

namespace Sys2Proof.Machine

/-- The instance with width `n` and polynomial `P` as CONSTRUCT leaves it (70_reset_and_hazards.md R120). -/
def State.constructed (n : Nat) (P : List Bit) : State :=
  { n := n, P := P, T := zeros n, R1 := zeros n, R2 := zeros n, REF := [], pending := [], responses := [] }

theorem construct_intsOf {n : Nat} {P : List Bit} (hn : 1 ≤ n) (hP : P.length = n) :
    construct n (intsOf P) = .next (State.constructed n P) := by
  have hlegal : ¬ (n = 0 ∨ P.length ≠ n) := by omega
  simp [construct, hlegal, State.constructed]

theorem State.constructed_inv {n : Nat} {P : List Bit} (hn : 1 ≤ n) (hP : P.length = n) :
    (State.constructed n P).Inv :=
  ⟨hn, hP, zeros_length n, zeros_length n, zeros_length n⟩

theorem State.reset_eq_constructed : State.reset = State.constructed Config.resetWidth Config.resetPoly := rfl

theorem resetPoly_length : Config.resetPoly.length = Config.resetWidth := rfl

/-- Settles O7: the reset state is what CONSTRUCT makes of the worked instance (00_scope.md R4), and a constructed
machine meets the invariant. -/
theorem resetIsAConstructedMachine : Obligations.ResetIsAConstructedMachine := by
  have hn : 1 ≤ Config.resetWidth := by decide
  have hbits : intsOf Config.resetPoly = [1, 0, 1, 0, 0, 1, 1, 0] := rfl
  rw [Obligations.ResetIsAConstructedMachine, State.reset_eq_constructed, ← hbits]
  exact ⟨State.constructed_inv hn resetPoly_length, construct_intsOf hn resetPoly_length⟩

end Sys2Proof.Machine
end

section
/-! PROOFS. What every step keeps (10_state.md R17, R22, R24), read off `Follows`: the invariant and the configuration,
the responses given before, and REF. -/

namespace Sys2Proof.Machine

/-! ### A step, by the request it takes -/

theorem step_of_pending {s : State} {r : Request} {rest : List Request} (hp : s.pending = r :: rest) :
    step s = perform r (s.withPending rest) := by
  simp [step, takeNext, hp]

theorem perform_newSession_intsOf (ref : List Bit) (s : State) :
    perform (.newSession (intsOf ref)) s = .next (s.withREF ref) := by
  simp [perform, newSession]

theorem perform_newSession_improper {ref : List Int} (h : ¬ Proper ref) (s : State) :
    perform (.newSession ref) s = .refused .improperReference := by
  obtain ⟨bs, rfl, -⟩ | ⟨-, good, info, hc⟩ := checkSeq_cases ref
  · exact absurd (proper_intsOf bs) h
  · simp [perform, newSession, hc]

/-- Whatever request a step takes, the rest follows from the state with that request taken out. -/
theorem step_follows {s t : State} (h : step s = .next t) : ∃ rest, Follows (s.withPending rest) t := by
  obtain ⟨_, rest, -, hperform⟩ := step_next h
  exact ⟨rest, (perform_follows hperform).1⟩

/-! ### What following keeps -/

theorem Follows.inv {s t : State} (h : Follows s t) (hs : s.Inv) : t.Inv := by
  obtain ⟨hn, hP, hT, h1, h2⟩ := hs
  rw [State.Inv, h.n, h.P]
  exact ⟨hn, hP, h.T_length hT, h.R1_length h1 h2, h.R2_length h1 h2⟩

theorem Follows.taps {s t : State} (h : Follows s t) : t.taps = s.taps := by
  rw [State.taps, State.taps, h.n, h.P]

/-- TAPS are fixed at construction (10_state.md R13). -/
theorem step_taps {s t : State} (h : step s = .next t) : t.taps = s.taps := by
  obtain ⟨_, hf⟩ := step_follows h
  exact hf.taps

/-- Settles O6: taking a request out of the queue keeps the invariant, and performing any request follows. -/
theorem stepKeepsTheInvariant : Obligations.StepKeepsTheInvariant := by
  intro s t hs h
  obtain ⟨rest, hf⟩ := step_follows h
  have hs' : (s.withPending rest).Inv := hs
  exact ⟨hf.inv hs', hf.n, hf.P, hf.taps⟩

/-- Settles O9: performing any request follows, and taking it out of the queue leaves the responses. -/
theorem responsesAreNeverChanged : Obligations.ResponsesAreNeverChanged := by
  intro s t h
  obtain ⟨_, hf⟩ := step_follows h
  exact hf.responses

/-- Settles O48: a new session reads its operand as bits or refuses it, and no other request writes REF. -/
theorem onlyANewSessionWritesTheReference : Obligations.OnlyANewSessionWritesTheReference := by
  intro s r rest hp
  rw [step_of_pending hp]
  refine ⟨?proper, ?improper, ?other⟩
  case proper =>
    rintro ref rfl
    exact perform_newSession_intsOf ref _
  case improper =>
    rintro ref rfl himproper
    exact perform_newSession_improper himproper _
  case other =>
    intro hother t h
    exact (perform_follows h).2 hother

end Sys2Proof.Machine
end

section
/-! PROOFS. The two engines side by side (10_state.md R16; 70_reset_and_hazards.md R121): `effectA` is given nothing of
engine B's registers and `effectB` nothing of engine A's, so their instructions neither meet nor depend on their
order. -/

namespace Sys2Proof.Machine

/-- Settles O12: an instruction writes what its engine's effect says, and that effect is a function of its own
registers. -/
theorem theEnginesAreDisjoint : Obligations.TheEnginesAreDisjoint := by
  intro i s
  cases he : i.onEngineA with
  | true =>
    refine ⟨_, exec_engineA he s, fun _ => ⟨rfl, rfl, ?otherPair⟩, nofun⟩
    exact fun _ _ => exec_engineA he _
  | false =>
    refine ⟨_, exec_engineB he s, nofun, fun _ => ⟨rfl, ?otherVector⟩⟩
    exact fun _ => exec_engineB he _

section
variable {i j : Instr} (hi : i.onEngineA = true) (hj : j.onEngineA = false) (s : State)
include hi hj

/-- Engine A's instruction first: both effects are those from the state before the two. -/
theorem execAll_engineA_engineB : execAll [i, j] s =
    .next ((((s.withT (effectA s.n s.P s.T i).1).withPair (effectB s.n s.P (s.R1, s.R2) j).1).respond
      (effectA s.n s.P s.T i).2).respond (effectB s.n s.P (s.R1, s.R2) j).2) := by
  simp only [execAll, exec_engineA hi, exec_engineB hj]
  rfl

/-- Engine B's instruction first: the same effects, and the responses in the other order. -/
theorem execAll_engineB_engineA : execAll [j, i] s =
    .next ((((s.withT (effectA s.n s.P s.T i).1).withPair (effectB s.n s.P (s.R1, s.R2) j).1).respond
      (effectB s.n s.P (s.R1, s.R2) j).2).respond (effectA s.n s.P s.T i).2) := by
  simp only [execAll, exec_engineA hi, exec_engineB hj]
  rfl

end

/-- Settles O13: in either order the two instructions have the effects they have from the state before both. -/
theorem operationsOfTheTwoEnginesCommute : Obligations.OperationsOfTheTwoEnginesCommute := by
  intro i j s hi hj
  refine ⟨_, _, (effectA s.n s.P s.T i).2, (effectB s.n s.P (s.R1, s.R2) j).2, execAll_engineA_engineB hi hj s,
    execAll_engineB_engineA hi hj s, by simp, by simp, rfl, rfl, rfl, rfl, rfl⟩

end Sys2Proof.Machine
end

section
/-! PROOFS. TAPS (10_state.md R13): the distances of the set positions, each in `1..n` and none twice. -/

namespace Sys2Proof.Machine

theorem bitAt_eq_true_iff {v : List Bit} {i : Nat} : bitAt v i = true ↔ v[i]? = some true := by
  rw [bitAt, List.getD_eq_getElem?_getD]
  cases v[i]? <;> simp

/-- A set position of a mask with `n` entries is below `n`. -/
theorem lt_of_getElem?_eq_true {n i : Nat} {P : List Bit} (hP : P.length = n) (h : P[i]? = some true) : i < n := by
  rw [← hP]
  exact (List.getElem?_eq_some_iff.1 h).1

theorem mem_tapsOf {n d : Nat} {P : List Bit} :
    d ∈ tapsOf n P ↔ ∃ i, i < n ∧ P[i]? = some true ∧ d = n - i := by
  simp [tapsOf, bitAt_eq_true_iff, eq_comm (a := d)]

theorem tapsOf_bounds {n d : Nat} {P : List Bit} (h : d ∈ tapsOf n P) : 1 ≤ d ∧ d ≤ n := by
  obtain ⟨i, hi, -, rfl⟩ := mem_tapsOf.1 h
  omega

/-- On the positions below the width, the distance tells the position. -/
theorem tapsOf_nodup {n : Nat} {P : List Bit} (hP : P.length = n) : (tapsOf n P).Nodup := by
  have position {i d : Nat} (h : d ∈ if bitAt P i then some (n - i) else none) : i < n ∧ d = n - i := by
    simp only [Option.mem_ite_none_right, Option.mem_some_iff, bitAt_eq_true_iff] at h
    obtain ⟨hset, hd⟩ := h
    exact ⟨lt_of_getElem?_eq_true hP hset, hd.symm⟩
  refine List.nodup_range.filterMap fun i j d hi hj => ?_
  obtain ⟨hi, rfl⟩ := position hi
  obtain ⟨hj, hd⟩ := position hj
  omega

theorem tapsOf_eq_nil_iff {n : Nat} {P : List Bit} (hP : P.length = n) :
    tapsOf n P = [] ↔ P = List.replicate n false := by
  constructor
  · intro hempty
    refine List.eq_replicate_iff.2 ⟨hP, fun b hb => ?_⟩
    obtain ⟨i, hi⟩ := List.mem_iff_getElem?.1 hb
    cases b with
    | false => rfl
    | true =>
      have hmem : n - i ∈ tapsOf n P := mem_tapsOf.2 ⟨i, lt_of_getElem?_eq_true hP hi, hi, rfl⟩
      simp [hempty] at hmem
  · rintro rfl
    refine List.eq_nil_iff_forall_not_mem.2 fun d hd => ?_
    obtain ⟨i, _, hi, _⟩ := mem_tapsOf.1 hd
    have hone : true = false := List.eq_of_mem_replicate (List.mem_of_getElem? hi)
    cases hone

/-- Settles O14: the members by `mem_tapsOf`, and a step leaves `n` and `P`. -/
theorem tapsAreTheDistancesOfTheSetPositions : Obligations.TapsAreTheDistancesOfTheSetPositions := by
  intro s ⟨_, hP, _⟩
  exact ⟨fun _ => mem_tapsOf, fun _ => tapsOf_bounds, tapsOf_nodup hP, tapsOf_eq_nil_iff hP, fun _ => step_taps⟩

end Sys2Proof.Machine
end

section
/-! PROOFS. Packing (20_memory.md R27(c)) and the step of an issued command (R31). -/

namespace Sys2Proof.Machine

/-! ### Packing: the head of a vector is the lowest bit of its word -/

@[simp] theorem pack_nil : pack [] = 0 := rfl

@[simp] theorem pack_cons (b : Bit) (v : List Bit) : pack (b :: v) = Nat.bit b (pack v) := by
  rw [Nat.bit_val, Nat.add_comm, pack]

theorem testBit_pack (v : List Bit) (i : Nat) : (pack v).testBit i = bitAt v i := by
  induction v generalizing i with
  | nil => simp
  | cons b v ih =>
    cases i with
    | zero => rw [pack_cons, Nat.testBit_bit_zero, bitAt_cons_zero]
    | succ i => rw [pack_cons, Nat.testBit_bit_succ, ih, bitAt_cons_succ]

/-- Settles O39: bit by bit along the vector, and the spec's example by evaluation. -/
theorem packedBitIsElement : Obligations.PackedBitIsElement :=
  ⟨testBit_pack, by decide⟩

/-! ### The step that takes a command -/

theorem perform_command {c : CmdWord} {operand : List Int} {i : Instr} (h : decode c operand = .instr i) (s : State) :
    perform (.command c operand) s = exec i s := by
  simp only [perform, runWord, h]

theorem perform_call (i : Instr) (s : State) : perform (.call i) s = exec i s := rfl

/-- Settles O4: a step performs the request at the front, and a word is performed as what it decodes to. -/
theorem stepRunsTheIssuedCommand : Obligations.StepRunsTheIssuedCommand := by
  intro s rest i
  constructor
  · intro c operand hp hdecode
    rw [step_of_pending hp, perform_command hdecode, State.withPending]
  · intro hp
    rw [step_of_pending hp, perform_call, State.withPending]

end Sys2Proof.Machine
end

section
/-! PROOFS. The command word (30_encoding.md R36, R37, R40, R48, R49): what each row decodes to and encodes as, and
which words are reserved. -/

namespace Sys2Proof.Machine

/-- The values of the 11 defined words (30_encoding.md R37). -/
abbrev definedWords : List Nat := [0x10, 0x20, 0x21, 0x30, 0x40, 0x90, 0xA0, 0xA1, 0xA2, 0xA3, 0xC0]

/-! ### The two rows with data bits: under the mask, the match and the data bits make the word -/

theorem eq_encodeWord_aAdvance : ∀ {c : CmdWord}, c &&& 0xFE#8 = 0x20#8 →
    encodeWord (.aAdvance (bitInt (c.getLsbD 0))) = c := by decide

theorem eq_encodeWord_bStep2 : ∀ {c : CmdWord}, c &&& 0xFC#8 = 0xA0#8 →
    encodeWord (.bStep2 (bitInt (c.getLsbD 0)) (bitInt (c.getLsbD 1))) = c := by decide

/-! ### Decoding the word of a row, whatever list stands beside it -/

section
variable (operand : List Int)

theorem decode_aReset : decode 0x10#8 operand = .instr .aReset := rfl

theorem decode_aAdvance (b : Bit) :
    decode (encodeWord (.aAdvance (bitInt b))) operand = .instr (.aAdvance (bitInt b)) := by
  cases b <;> rfl

theorem decode_aRun : decode 0x30#8 operand = .instr (.aRun operand) := rfl

theorem decode_aSigchain : decode 0x40#8 operand = .instr (.aSigchain operand) := rfl

theorem decode_bReset : decode 0x90#8 operand = .instr .bReset := rfl

theorem decode_bStep2 (a b : Bit) :
    decode (encodeWord (.bStep2 (bitInt a) (bitInt b))) operand = .instr (.bStep2 (bitInt a) (bitInt b)) := by
  cases a <;> cases b <;> rfl

theorem decode_bSigchain : decode 0xC0#8 operand = .instr (.bSigchain operand) := rfl

end

/-! ### The round trips -/

theorem wellFormed_aAdvance {v : Int} : (Instr.aAdvance v).wellFormed = true ↔ ∃ b, v = bitInt b := by
  rw [← isBit_iff_bitInt]
  exact decide_eq_true_iff

theorem wellFormed_bStep2 {v w : Int} :
    (Instr.bStep2 v w).wellFormed = true ↔ (∃ a, v = bitInt a) ∧ ∃ b, w = bitInt b := by
  rw [← isBit_iff_bitInt, ← isBit_iff_bitInt, Instr.wellFormed, Bool.and_eq_true, decide_eq_true_iff,
    decide_eq_true_iff]

theorem decode_encode {i : Instr} (h : i.wellFormed = true) : decode (encode i).1 (encode i).2 = .instr i := by
  cases i with
  | aReset => exact decode_aReset _
  | aAdvance v =>
    obtain ⟨b, rfl⟩ := wellFormed_aAdvance.1 h
    exact decode_aAdvance _ b
  | aRun s => exact decode_aRun s
  | aSigchain s => exact decode_aSigchain s
  | bReset => exact decode_bReset _
  | bStep2 v w =>
    obtain ⟨⟨a, rfl⟩, b, rfl⟩ := wellFormed_bStep2.1 h
    exact decode_bStep2 _ a b
  | bSigchain s => exact decode_bSigchain s

/-- Everything a word that decodes can be: the word of the well-formed instruction it decodes to. -/
theorem encodeWord_of_decode {c : CmdWord} {operand : List Int} {i : Instr} (h : decode c operand = .instr i) :
    encodeWord i = c ∧ i.wellFormed = true := by
  unfold decode at h
  split_ifs at h with hAReset hAAdvance hARun hASigchain hBReset hBStep2 hBSigchain <;> cases h
  · exact ⟨hAReset.symm, rfl⟩
  · exact ⟨eq_encodeWord_aAdvance hAAdvance, wellFormed_aAdvance.2 ⟨_, rfl⟩⟩
  · exact ⟨hARun.symm, rfl⟩
  · exact ⟨hASigchain.symm, rfl⟩
  · exact ⟨hBReset.symm, rfl⟩
  · exact ⟨eq_encodeWord_bStep2 hBStep2, wellFormed_bStep2.2 ⟨⟨_, rfl⟩, _, rfl⟩⟩
  · exact ⟨hBSigchain.symm, rfl⟩

/-- Settles O3: `decode_encode` one way, `encodeWord_of_decode` the other, and the words of R49 bit by bit. -/
theorem decodeAndEncodeAgree : Obligations.DecodeAndEncodeAgree := by
  refine ⟨fun _ => decode_encode, fun _ _ _ => encodeWord_of_decode, ?advance, ?step2, rfl, rfl,
    fun _ => ⟨rfl, rfl, rfl⟩⟩
  case advance => decide
  case step2 => decide

/-! ### The rows and the defined words -/

/-- Settles O2: each of the words is its row's, with the data bits written out. -/
theorem wordsWrittenBitByBitDecode : Obligations.WordsWrittenBitByBitDecode :=
  ⟨decode_aReset _, decode_aAdvance _ true, decode_aRun _, decode_aSigchain _, decode_bReset _,
    decode_bStep2 _ true false, decode_bStep2 _ false true, decode_bSigchain _⟩

theorem encodeWord_defined {i : Instr} (h : i.wellFormed = true) : (encodeWord i).toNat ∈ definedWords := by
  cases i with
  | aReset => decide
  | aAdvance v =>
    obtain ⟨b, rfl⟩ := wellFormed_aAdvance.1 h
    cases b <;> decide
  | aRun s => simp [encodeWord]
  | aSigchain s => simp [encodeWord]
  | bReset => decide
  | bStep2 v w =>
    obtain ⟨⟨a, rfl⟩, b, rfl⟩ := wellFormed_bStep2.1 h
    cases a <;> cases b <;> decide
  | bSigchain s => simp [encodeWord]

/-- Every defined word is the word of a row and its data bits. -/
theorem exists_decode_of_defined {c : CmdWord} (h : c.toNat ∈ definedWords) (operand : List Int) :
    ∃ i, decode c operand = .instr i := by
  have hc : c = BitVec.ofNat 8 c.toNat := (c.ofNat_toNat 8).symm
  generalize c.toNat = k at h hc
  subst hc
  simp only [definedWords, List.mem_cons, List.not_mem_nil, or_false] at h
  rcases h with rfl | rfl | rfl | rfl | rfl | rfl | rfl | rfl | rfl | rfl | rfl <;> exact ⟨_, rfl⟩

theorem exists_decode_iff {c : CmdWord} {operand : List Int} :
    (∃ i, decode c operand = .instr i) ↔ c.toNat ∈ definedWords := by
  refine ⟨?_, fun h => exists_decode_of_defined h operand⟩
  rintro ⟨i, hi⟩
  obtain ⟨rfl, hwf⟩ := encodeWord_of_decode hi
  exact encodeWord_defined hwf

/-- Settles O1: a row whose mask is all ones has one word, and the two others are their match and their data bits. -/
theorem eachRowOfTheTableSelectsItsCommand : Obligations.EachRowOfTheTableSelectsItsCommand := by
  intro c operand
  have hall : c &&& 0xFF#8 = c := BitVec.and_allOnes
  rw [hall]
  refine ⟨?_, ?advance, ?_, ?_, ?_, ?step2, ?_, exists_decode_iff⟩
  case advance =>
    intro h
    have hrow := decode_aAdvance operand (c.getLsbD 0)
    rwa [eq_encodeWord_aAdvance h] at hrow
  case step2 =>
    intro h
    have hrow := decode_bStep2 operand (c.getLsbD 0) (c.getLsbD 1)
    rwa [eq_encodeWord_bStep2 h] at hrow
  all_goals rintro rfl
  · exact decode_aReset operand
  · exact decode_aRun operand
  · exact decode_aSigchain operand
  · exact decode_bReset operand
  · exact decode_bSigchain operand

/-- What 30_encoding.md R40 says of the fields of a reserved word. -/
def ReservedFields (c : CmdWord) : Prop :=
  c.extractLsb' 4 3 ∈ [0b000#3, 0b101#3, 0b110#3, 0b111#3] ∨ c.extractLsb' 2 2 ≠ 0b00#2 ∨
    (c.getLsbD 7 = true ∧ c.extractLsb' 4 3 = 0b011#3) ∨
    (c.getLsbD 1 = true ∧ ¬ (c.getLsbD 7 = true ∧ c.extractLsb' 4 3 = 0b010#3)) ∨
    (c.getLsbD 0 = true ∧ c.extractLsb' 4 3 ≠ 0b010#3)

/-- The fields leave out exactly the 11 defined words. -/
theorem not_defined_iff_reservedFields : ∀ c : CmdWord, c.toNat ∉ definedWords ↔ ReservedFields c := by
  unfold ReservedFields
  decide

end Sys2Proof.Machine
end

section
/-! PROOFS. The one response of a command (30_encoding.md R41; 60_exceptions.md R101), and what that makes of a step
that takes a command word (R38, R40). -/

namespace Sys2Proof.Machine

/-! ### Proper operands -/

/-- B.SIGCHAIN asks for proper operands as far as it consumes them (41_variant_b.md R71). -/
theorem operandsProper_bSigchain {s : List Int} : (Instr.bSigchain s).OperandsProper ↔ Proper (consumed s) := by
  constructor
  · intro h v hv
    obtain ⟨t, ht⟩ := List.mem_iff_getElem?.1 hv
    rw [consumed, List.getElem?_take] at ht
    split_ifs at ht with hlt
    exact h t hlt v ht
  · intro h t hlt v hv
    refine h v (List.mem_iff_getElem?.2 ⟨t, ?_⟩)
    rw [consumed, List.getElem?_take, if_pos hlt, hv]

/-- What a word decodes to asks nothing of its operands but that the list is proper, where it takes one. -/
theorem operandsProper_of_decode {c : CmdWord} {operand : List Int} {i : Instr} (h : decode c operand = .instr i)
    (hp : Proper operand) : i.OperandsProper := by
  unfold decode at h
  split_ifs at h <;> cases h
  · trivial
  · exact bitInt_isBit _
  · exact hp
  · exact hp
  · trivial
  · exact ⟨bitInt_isBit _, bitInt_isBit _⟩
  · exact operandsProper_bSigchain.2 fun v hv => hp v (List.mem_of_mem_take hv)

/-! ### The status of the response -/

/-- OK when the operands are proper, and InvalidInput when not: the table of 60_exceptions.md R101. -/
def StatusFits (operandsProper : Prop) (r : Response) : Prop :=
  (operandsProper → r.status = .ok) ∧ (¬ operandsProper → r.status = .invalidInput)

theorem statusFits_ok {operandsProper : Prop} (h : operandsProper) (p : Payload) :
    StatusFits operandsProper (.ok p) :=
  ⟨fun _ => rfl, fun hn => absurd h hn⟩

theorem statusFits_failed {operandsProper : Prop} (h : ¬ operandsProper) (info : FailInfo) :
    StatusFits operandsProper (.failed .invalidInput info) :=
  ⟨fun hp => absurd hp h, fun _ => rfl⟩

theorem statusFits_effectA (n : Nat) (P T : List Bit) {i : Instr} (he : i.onEngineA = true) :
    StatusFits i.OperandsProper (effectA n P T i).2 := by
  cases i with
  | aReset => exact statusFits_ok trivial _
  | aAdvance v =>
    by_cases hv : IsBit v
    · obtain ⟨b, rfl⟩ := isBit_iff_bitInt.1 hv
      rw [effectA, bitOf_bitInt]
      exact statusFits_ok hv _
    · rw [effectA, bitOf_eq_none_iff.2 hv]
      exact statusFits_failed hv _
  | aRun s =>
    obtain ⟨bs, rfl, hc⟩ | ⟨hs, _, _, hc⟩ := checkSeq_cases s <;> rw [effectA, hc]
    · exact statusFits_ok (proper_intsOf bs) _
    · exact statusFits_failed hs _
  | aSigchain s =>
    obtain ⟨bs, rfl, hc⟩ | ⟨hs, _, _, hc⟩ := checkSeq_cases s <;> rw [effectA, hc]
    · exact statusFits_ok (proper_intsOf bs) _
    · exact statusFits_failed hs _
  | bReset => cases he
  | bStep2 _ _ => cases he
  | bSigchain _ => cases he

theorem statusFits_effectB (n : Nat) (P : List Bit) (r : List Bit × List Bit) {i : Instr} (he : i.onEngineA = false) :
    StatusFits i.OperandsProper (effectB n P r i).2 := by
  cases i with
  | bReset => exact statusFits_ok trivial _
  | bStep2 x0 x1 =>
    by_cases h0 : IsBit x0
    · obtain ⟨a, rfl⟩ := isBit_iff_bitInt.1 h0
      by_cases h1 : IsBit x1
      · obtain ⟨b, rfl⟩ := isBit_iff_bitInt.1 h1
        rw [effectB, bitOf_bitInt, bitOf_bitInt]
        exact statusFits_ok ⟨h0, h1⟩ _
      · rw [effectB, bitOf_bitInt, bitOf_eq_none_iff.2 h1]
        exact statusFits_failed (mt And.right h1) _
    · rw [effectB, bitOf_eq_none_iff.2 h0]
      exact statusFits_failed (mt And.left h0) _
  | bSigchain s =>
    obtain ⟨bs, hs, hc⟩ | ⟨hs, _, _, hc⟩ := checkSeq_cases (consumed s) <;> rw [effectB, hc]
    · exact statusFits_ok (operandsProper_bSigchain.2 (hs ▸ proper_intsOf bs)) _
    · exact statusFits_failed (mt operandsProper_bSigchain.1 hs) _
  | aReset => cases he
  | aAdvance _ => cases he
  | aRun _ => cases he
  | aSigchain _ => cases he

/-- Settles O8: the instruction's engine gives the response, and its effect leaves the rest. -/
theorem everyCommandCompletesWithOneResponse : Obligations.EveryCommandCompletesWithOneResponse := by
  intro i s
  cases he : i.onEngineA with
  | true =>
    obtain ⟨hok, hfailed⟩ := statusFits_effectA s.n s.P s.T he
    exact ⟨_, _, exec_engineA he s, rfl, hok, hfailed, rfl, rfl, rfl, rfl⟩
  | false =>
    obtain ⟨hok, hfailed⟩ := statusFits_effectB s.n s.P (s.R1, s.R2) he
    exact ⟨_, _, exec_engineB he s, rfl, hok, hfailed, rfl, rfl, rfl, rfl⟩

/-! ### Runs without a failure, and the step that takes a word -/

theorem exec_completes (i : Instr) (s : State) : ∃ t, exec i s = .next t := by
  obtain ⟨t, _, ht, _⟩ := everyCommandCompletesWithOneResponse i s
  exact ⟨t, ht⟩

/-- A command with proper operands keeps a run free of failures. -/
theorem exec_noFailure {i : Instr} {s t : State} (hi : i.OperandsProper) (hs : s.NoFailure) (h : exec i s = .next t) :
    t.NoFailure := by
  obtain ⟨u, r, hu, hresp, hok, _⟩ := everyCommandCompletesWithOneResponse i s
  obtain rfl : u = t := by simpa [hu] using h
  intro x hx
  rw [hresp, List.mem_append, List.mem_singleton] at hx
  obtain hx | rfl := hx
  · exact hs x hx
  · exact hok hi

theorem perform_reserved {c : CmdWord} {operand : List Int} {why : Reserved} (h : decode c operand = .reserved why)
    (s : State) : perform (.command c operand) s = .refused (.reservedWord c why) := by
  simp only [perform, runWord, h]

/-- Settles O11: the word has decoded to a command, and its operands are proper. -/
theorem commandWordsWithProperOperandsNeverFail : Obligations.CommandWordsWithProperOperandsNeverFail := by
  intro s t c operand rest hp hproper hs h
  rw [step_of_pending hp] at h
  cases hd : decode c operand with
  | instr i =>
    rw [perform_command hd] at h
    exact exec_noFailure (s := s.withPending rest) (operandsProper_of_decode hd hproper) hs h
  | reserved why =>
    rw [perform_reserved hd] at h
    cases h

/-- Settles O5: a word is refused exactly when it decodes to no instruction, and every instruction completes. -/
theorem reservedWordsAndOnlyTheyAreRefused : Obligations.ReservedWordsAndOnlyTheyAreRefused := by
  intro s rest c operand hp
  rw [step_of_pending hp]
  refine ⟨?undefined, ?defined, not_defined_iff_reservedFields c⟩
  case undefined =>
    intro hc
    cases hd : decode c operand with
    | instr i => exact absurd (exists_decode_iff.1 ⟨i, hd⟩) hc
    | reserved why => exact ⟨why, perform_reserved hd _⟩
  case defined =>
    intro hc
    obtain ⟨i, hd⟩ := exists_decode_of_defined hc operand
    rw [perform_command hd]
    exact exec_completes i _

end Sys2Proof.Machine
end

section
/-! PROOFS. The sequence commands as their expansions (30_encoding.md R44; 40_variant_a.md R56; 41_variant_b.md R70). -/

namespace Sys2Proof.Machine

theorem execAll_cons {i : Instr} {s t : State} (h : exec i s = .next t) (is : List Instr) :
    execAll (i :: is) s = execAll is t := by
  simp only [execAll, h]

/-! ### Engine A -/

/-- The first snapshot is the vector before the run. -/
theorem trajectory_eq_cons (n : Nat) (P T bs : List Bit) :
    trajectory n P T bs = T :: (trajectory n P T bs).tail := by
  cases bs <;> rfl

/-- The series of A.ADVANCEs ends in the run's last vector and has answered its snapshots after the first. -/
theorem execAll_aAdvance (bs : List Bit) (s : State) : execAll ((intsOf bs).map Instr.aAdvance) s =
    .next { s with
      T := finalT s.n s.P s.T bs
      responses := s.responses ++ (trajectory s.n s.P s.T bs).tail.map fun v => .ok (.vector v) } := by
  induction bs generalizing s with
  | nil => simp [execAll, trajectory]
  | cons b bs ih =>
    have hfirst := trajectory_eq_cons s.n s.P (advanceT s.n s.P s.T b) bs
    rw [intsOf_cons, List.map_cons, execAll_cons (i := .aAdvance (bitInt b)) (execAAdvance_bit b s), ih, trajectory,
      List.tail_cons, hfirst]
    simp [finalT, State.withT, State.respond]

/-- A.RESET, then A.RUN: the run from the all-zero vector. -/
theorem execAll_aReset_aRun (bs : List Bit) (s : State) : execAll [.aReset, .aRun (intsOf bs)] s =
    .next (((s.withT (finalT s.n s.P (zeros s.n) bs)).respond (.ok .nothing)).respond
      (.ok (.snapshots (trajectory s.n s.P (zeros s.n) bs)))) := by
  have hreset : exec .aReset s = .next ((s.withT (zeros s.n)).respond (.ok .nothing)) := rfl
  rw [execAll_cons hreset, execAll_cons (i := .aRun (intsOf bs)) (execARun_proper bs _)]
  rfl

/-- Settles O20: A.RUN against its series of A.ADVANCEs, and A.SIGCHAIN against A.RESET and A.RUN. -/
theorem engineASequencesAreTheirExpansions : Obligations.EngineASequencesAreTheirExpansions := by
  intro s bs
  refine ⟨⟨_, _, execAll_aAdvance bs s, rfl, ?run⟩,
    ⟨_, trajectory s.n s.P (zeros s.n) bs, execAll_aReset_aRun bs s, by simp, ?sigchain⟩⟩
  case run =>
    rw [← trajectory_eq_cons]
    exact execARun_proper bs s
  case sigchain => exact execASigchain_proper bs s

/-! ### Engine B -/

/-- The emitted bits, taken in pairs and put together again. -/
theorem flatMap_pairsOf_emissions (n : Nat) (taps : List Nat) (r : List Bit × List Bit) (xs : List (Bit × Bit)) :
    ((pairsOf (emissions n taps r xs)).flatMap fun o => [o.1, o.2]) = emissions n taps r xs := by
  induction xs generalizing r with
  | nil => rfl
  | cons x xs ih => simp [emissions, pairsOf, ih]

/-- The series of B.STEP2s ends in the last pair of registers and has answered the emitted bits, pair by pair. -/
theorem execAll_bStep2 (xs : List (Bit × Bit)) (s : State) :
    execAll (xs.map fun x => .bStep2 (bitInt x.1) (bitInt x.2)) s =
      .next { s.withPair (finalPair s.n s.taps (s.R1, s.R2) xs) with
        responses := s.responses ++
          (pairsOf (emissions s.n s.taps (s.R1, s.R2) xs)).map fun o => .ok (.pair o.1 o.2) } := by
  induction xs generalizing s with
  | nil => simp [execAll, emissions, pairsOf, finalPair, State.withPair]
  | cons x xs ih =>
    rw [List.map_cons, execAll_cons (i := .bStep2 (bitInt x.1) (bitInt x.2)) (execBStep2_bits x.1 x.2 s), ih]
    simp [emissions, pairsOf, finalPair, shiftPair, State.withPair, State.respond, State.taps]

/-- B.RESET, then the series of B.STEP2s from the all-zero pair. -/
theorem execAll_bReset_bStep2 (xs : List (Bit × Bit)) (s : State) :
    execAll (.bReset :: xs.map fun x => .bStep2 (bitInt x.1) (bitInt x.2)) s =
      .next { s.withPair (finalPair s.n s.taps (zeros s.n, zeros s.n) xs) with
        responses := s.responses ++ .ok .nothing ::
          (pairsOf (emissions s.n s.taps (zeros s.n, zeros s.n) xs)).map fun o => .ok (.pair o.1 o.2) } := by
  have hreset : exec .bReset s = .next ((s.withPair (zeros s.n, zeros s.n)).respond (.ok .nothing)) := rfl
  rw [execAll_cons hreset, execAll_bStep2]
  simp [State.withPair, State.taps]

/-- Settles O30: the expansion steps the pairs of the operand, and the chain is what these steps emit. -/
theorem engineBSequenceIsItsExpansion : Obligations.EngineBSequenceIsItsExpansion := by
  intro s bs
  have hsteps : ((List.range (bs.length / 2)).map fun i =>
      Instr.bStep2 (bitInt (bitAt bs (2 * i))) (bitInt (bitAt bs (2 * i + 1)))) =
        (pairsOf bs).map fun x => .bStep2 (bitInt x.1) (bitInt x.2) := by
    rw [pairsOf_eq_map, List.map_map]
    rfl
  rw [hsteps]
  refine ⟨_, _, execAll_bReset_bStep2 (pairsOf bs) s, rfl, ?_⟩
  rw [flatMap_pairsOf_emissions]
  exact execBSigchain_proper bs s

end Sys2Proof.Machine
end

section
/-! PROOFS. CONSTRUCT (30_encoding.md R46; 70_reset_and_hazards.md R120, R124). -/

namespace Sys2Proof.Machine

/-- A mask with an entry that is no bit, one of another length than `n`, and the width 0 are refused. -/
theorem construct_refused {n : Nat} {P : List Int} (h : ¬ (1 ≤ n ∧ P.length = n ∧ Proper P)) :
    construct n P = .refused .badConstruction := by
  obtain ⟨bs, rfl, hc⟩ | ⟨_, _, _, hc⟩ := checkSeq_cases P
  · have hbad : n = 0 ∨ bs.length ≠ n := by
      by_contra hgood
      exact h ⟨by omega, by rw [intsOf_length]; omega, proper_intsOf bs⟩
    simp only [construct, hc, if_pos hbad]
  · simp only [construct, hc]

/-- Settles O36: a proper mask of `n` bits gives `State.constructed`, and everything else is refused. -/
theorem constructMakesAZeroedMachine : Obligations.ConstructMakesAZeroedMachine := by
  intro n P
  refine ⟨?_, construct_refused⟩
  rintro ⟨hn, hlength, hproper⟩
  obtain ⟨bs, rfl⟩ := proper_iff_intsOf.1 hproper
  rw [intsOf_length] at hlength
  exact ⟨_, construct_intsOf hn hlength, State.constructed_inv hn hlength, rfl, rfl, rfl, rfl, rfl⟩

end Sys2Proof.Machine
end

section
/-! PROOFS. A line's text is read back as the line (30_encoding.md R43): what the writer's texts are free of, and what
each piece of the reader makes of the writer's piece. -/

namespace Sys2Proof.Machine

/-! ### Texts the reader takes as they stand -/

/-- A text that is not empty, and that neither trimming nor the comment's semicolon shortens. -/
structure Clean (cs : List Char) : Prop where
  ne_nil : cs ≠ []
  head : cs.head? ≠ some ' '
  last : cs.getLast? ≠ some ' '
  noComment : ';' ∉ cs

theorem trim_of_noSpace {cs : List Char} (h : ' ' ∉ cs) : trim cs = cs :=
  trim_of_ends (fun hc => h (List.mem_of_head? hc)) (fun hc => h (List.mem_of_getLast? hc))

theorem takeWhile_noComment {cs : List Char} (h : ';' ∉ cs) : cs.takeWhile (· != ';') = cs := by
  rw [List.takeWhile_eq_self_iff]
  intro c hc
  exact bne_iff_ne.2 fun hsemicolon => h (hsemicolon ▸ hc)

section
variable {cs : List Char} (h : Clean cs)
include h

theorem Clean.trim_eq : trim cs = cs := trim_of_ends h.head h.last

/-- Trimming takes a space off the end, and no more. -/
theorem Clean.trim_append_space : trim (cs ++ [' ']) = cs := by
  have hfront : dropSpaces (cs ++ [' ']) = cs ++ [' '] := by
    refine dropSpaces_of_head ?_
    rw [List.head?_append_of_ne_nil _ h.ne_nil]
    exact h.head
  have hback : dropSpaces (' ' :: cs.reverse) = cs.reverse := by
    refine dropSpaces_of_head (cs := cs.reverse) ?_
    rw [List.head?_reverse]
    exact h.last
  rw [trim, hfront, List.reverse_append, List.reverse_singleton, List.singleton_append, hback, List.reverse_reverse]

/-- Two clean texts with a space between them. -/
theorem Clean.append_space {ds : List Char} (h' : Clean ds) : Clean (cs ++ ' ' :: ds) where
  ne_nil := by simp
  head := by
    rw [List.head?_append_of_ne_nil _ h.ne_nil]
    exact h.head
  last := by
    rw [List.getLast?_append_of_ne_nil _ (List.cons_ne_nil _ _), List.getLast?_cons_of_ne_nil h'.ne_nil]
    exact h'.last
  noComment := by simp [h.noComment, h'.noComment]

end

/-! ### Operands -/

theorem clean_intText (b : Bit) : Clean (intText (bitInt b)) := by
  cases b <;> exact ⟨by decide, by decide, by decide, by decide⟩

theorem readBit_intText (b : Bit) : readBit (intText (bitInt b)) = some (bitInt b) := by
  cases b <;> rfl

theorem readInt_intText (b : Bit) : readInt (intText (bitInt b)) = some (bitInt b) := by
  cases b <;> rfl

theorem splitCommas_noComma {cs : List Char} (h : ',' ∉ cs) : splitCommas cs = [cs] := by
  induction cs with
  | nil => rfl
  | cons x cs ih =>
    obtain ⟨hx, hcs⟩ := List.ne_and_not_mem_of_not_mem_cons h
    simp [splitCommas, ih hcs, Ne.symm hx]

theorem splitCommas_append {cs : List Char} (h : ',' ∉ cs) (ds : List Char) :
    splitCommas (cs ++ ',' :: ds) = cs :: splitCommas ds := by
  induction cs with
  | nil =>
    obtain ⟨p, ps, hds⟩ := List.exists_cons_of_ne_nil (splitCommas_ne_nil ds)
    simp [splitCommas, hds]
  | cons x cs ih =>
    obtain ⟨hx, hcs⟩ := List.ne_and_not_mem_of_not_mem_cons h
    simp [splitCommas, ih hcs, Ne.symm hx]

theorem comma_notMem_intText (b : Bit) : ',' ∉ intText (bitInt b) := by cases b <;> decide

/-- The elements of a proper sequence are written with digits and commas. -/
theorem mem_elementsText {bs : List Bit} {c : Char} (h : c ∈ elementsText (intsOf bs)) :
    c = '0' ∨ c = '1' ∨ c = ',' := by
  have hbit {b : Bit} (hc : c ∈ intText (bitInt b)) : c = '0' ∨ c = '1' ∨ c = ',' := by
    cases b <;> simp_all [intText_bitInt]
  induction bs with
  | nil => cases h
  | cons b bs ih =>
    cases bs with
    | nil => exact hbit h
    | cons b' bs =>
      simp only [intsOf_cons, elementsText, List.mem_append, List.mem_cons] at h
      obtain hc | hc | hc := h
      · exact hbit hc
      · exact .inr (.inr hc)
      · exact ih hc

theorem notMem_elementsText {c : Char} (hc : ¬ (c = '0' ∨ c = '1' ∨ c = ',')) (bs : List Bit) :
    c ∉ elementsText (intsOf bs) :=
  fun h => hc (mem_elementsText h)

theorem elementsText_ne_nil (b : Bit) (bs : List Bit) : elementsText (intsOf (b :: bs)) ≠ [] := by
  cases bs with
  | nil => exact (clean_intText b).ne_nil
  | cons b' bs => simp [elementsText]

theorem readAll_splitCommas_elementsText (b : Bit) (bs : List Bit) :
    readAll (splitCommas (elementsText (intsOf (b :: bs)))) = some (intsOf (b :: bs)) := by
  have hread (b : Bit) : readInt (trim (intText (bitInt b))) = some (bitInt b) := by
    rw [(clean_intText b).trim_eq, readInt_intText]
  induction bs generalizing b with
  | nil =>
    show readAll (splitCommas (intText (bitInt b))) = _
    rw [splitCommas_noComma (comma_notMem_intText b)]
    simp [readAll, hread]
  | cons b' bs ih =>
    show readAll (splitCommas (intText (bitInt b) ++ ',' :: elementsText (intsOf (b' :: bs)))) = _
    rw [splitCommas_append (comma_notMem_intText b), readAll, hread, ih]
    rfl

theorem readSeq_seqText (bs : List Bit) : readSeq (seqText (intsOf bs)) = some (intsOf bs) := by
  have hsplit : splitFirst ']' (elementsText (intsOf bs) ++ [']']) = some (elementsText (intsOf bs), []) :=
    splitFirst_append [] (notMem_elementsText (by decide) bs)
  have htrim : trim (elementsText (intsOf bs)) = elementsText (intsOf bs) :=
    trim_of_noSpace (notMem_elementsText (by decide) bs)
  simp only [seqText, List.cons_append, readSeq, hsplit, htrim]
  cases bs with
  | nil => rfl
  | cons b bs => rw [if_neg (elementsText_ne_nil b bs), readAll_splitCommas_elementsText]

theorem clean_seqText (bs : List Bit) : Clean (seqText (intsOf bs)) where
  ne_nil := by simp [seqText]
  head := by simp [seqText]
  last := by simp [seqText, List.getLast?_cons]
  noComment := by simp [seqText, notMem_elementsText (show ¬ (';' = '0' ∨ ';' = '1' ∨ ';' = ',') by decide) bs]

/-! ### Commands -/

/-- The instructions whose operands the reader takes: bits and proper sequences. -/
inductive Readable : Instr → Prop
  | aReset : Readable .aReset
  | aAdvance (b : Bit) : Readable (.aAdvance (bitInt b))
  | aRun (bs : List Bit) : Readable (.aRun (intsOf bs))
  | aSigchain (bs : List Bit) : Readable (.aSigchain (intsOf bs))
  | bReset : Readable .bReset
  | bStep2 (a b : Bit) : Readable (.bStep2 (bitInt a) (bitInt b))
  | bSigchain (bs : List Bit) : Readable (.bSigchain (intsOf bs))

theorem readable_of_proper {i : Instr} (h : i.OperandsProper)
    (hB : ∀ operand, i = .bSigchain operand → Proper operand) : Readable i := by
  cases i with
  | aReset => exact .aReset
  | aAdvance v =>
    obtain ⟨b, rfl⟩ := isBit_iff_bitInt.1 h
    exact .aAdvance b
  | aRun s =>
    obtain ⟨bs, rfl⟩ := proper_iff_intsOf.1 h
    exact .aRun bs
  | aSigchain s =>
    obtain ⟨bs, rfl⟩ := proper_iff_intsOf.1 h
    exact .aSigchain bs
  | bReset => exact .bReset
  | bStep2 v w =>
    obtain ⟨h0, h1⟩ := h
    obtain ⟨a, rfl⟩ := isBit_iff_bitInt.1 h0
    obtain ⟨b, rfl⟩ := isBit_iff_bitInt.1 h1
    exact .bStep2 a b
  | bSigchain s =>
    obtain ⟨bs, rfl⟩ := proper_iff_intsOf.1 (hB s rfl)
    exact .bSigchain bs

theorem clean_mnemonicText (i : Instr) : Clean (mnemonicText i) := by
  cases i <;> exact ⟨by simp [mnemonicText], by simp [mnemonicText], by simp [mnemonicText], by simp [mnemonicText]⟩

theorem space_notMem_mnemonicText (i : Instr) : ' ' ∉ mnemonicText i := by
  cases i <;> simp [mnemonicText]

theorem clean_pairText (a b : Bit) : Clean (intText (bitInt a) ++ ',' :: ' ' :: intText (bitInt b)) := by
  cases a <;> cases b <;> exact ⟨by decide, by decide, by decide, by decide⟩

theorem instrText_bStep2 (x0 x1 : Int) : instrText (.bStep2 x0 x1) =
    mnemonicText (.bStep2 x0 x1) ++ ' ' :: (intText x0 ++ ',' :: ' ' :: intText x1) := by
  simp [instrText]

theorem clean_instrText {i : Instr} (h : Readable i) : Clean (instrText i) := by
  have hm := clean_mnemonicText i
  cases h with
  | aReset => exact hm
  | aAdvance b => exact hm.append_space (clean_intText b)
  | aRun bs => exact hm.append_space (clean_seqText bs)
  | aSigchain bs => exact hm.append_space (clean_seqText bs)
  | bReset => exact hm
  | bStep2 a b =>
    rw [instrText_bStep2]
    exact hm.append_space (clean_pairText a b)
  | bSigchain bs => exact hm.append_space (clean_seqText bs)

theorem equals_notMem_instrText {i : Instr} (h : Readable i) : '=' ∉ instrText i := by
  have hbit (b : Bit) : '=' ∉ intText (bitInt b) := by cases b <;> decide
  have hseq (bs : List Bit) : '=' ∉ elementsText (intsOf bs) := notMem_elementsText (by decide) bs
  cases h <;> simp [instrText, mnemonicText, seqText, hbit, hseq]

section
variable (i : Instr)

theorem readInstr_mnemonic : readInstr (mnemonicText i) = readOperands (mnemonicText i) [] := by
  rw [readInstr, splitFirst_none (space_notMem_mnemonicText i)]

theorem readInstr_operands {ops : List Char} (h : Clean ops) :
    readInstr (mnemonicText i ++ ' ' :: ops) = readOperands (mnemonicText i) ops := by
  rw [readInstr, splitFirst_append ops (space_notMem_mnemonicText i)]
  simp only [h.trim_eq]

end

theorem readPair_text (a b : Bit) :
    readPair (intText (bitInt a) ++ ',' :: ' ' :: intText (bitInt b)) = some (bitInt a, bitInt b) := by
  simp only [readPair, splitFirst_append _ (comma_notMem_intText a), trim_cons_space, (clean_intText a).trim_eq,
    (clean_intText b).trim_eq, readBit_intText]
  rfl

theorem readInstr_instrText {i : Instr} (h : Readable i) : readInstr (instrText i) = some i := by
  cases h with
  | aReset => exact readInstr_mnemonic .aReset
  | aAdvance b =>
    rw [instrText, readInstr_operands _ (clean_intText b)]
    simp [readOperands, mnemonicText, readBit_intText]
  | aRun bs =>
    rw [instrText, readInstr_operands _ (clean_seqText bs)]
    simp [readOperands, mnemonicText, readSeq_seqText]
  | aSigchain bs =>
    rw [instrText, readInstr_operands _ (clean_seqText bs)]
    simp [readOperands, mnemonicText, readSeq_seqText]
  | bReset => exact readInstr_mnemonic .bReset
  | bStep2 a b =>
    rw [instrText_bStep2, readInstr_operands _ (clean_pairText a b)]
    simp [readOperands, mnemonicText, readPair_text]
  | bSigchain bs =>
    rw [instrText, readInstr_operands _ (clean_seqText bs)]
    simp [readOperands, mnemonicText, readSeq_seqText]

/-! ### Lines -/

theorem goodName_notMem {name : List Char} (h : goodName name = true) : ' ' ∉ name ∧ ';' ∉ name ∧ '=' ∉ name := by
  simp only [goodName, Bool.and_eq_true, List.all_eq_true, decide_eq_true_eq] at h
  obtain ⟨_, hall⟩ := h
  refine ⟨?_, ?_, ?_⟩ <;> intro hc <;> simpa using hall _ hc

theorem clean_goodName {name : List Char} (h : goodName name = true) : Clean name := by
  obtain ⟨hspace, hsemicolon, _⟩ := goodName_notMem h
  have hne : name ≠ [] := by
    rintro rfl
    cases h
  exact ⟨hne, fun hc => hspace (List.mem_of_head? hc), fun hc => hspace (List.mem_of_getLast? hc), hsemicolon⟩

/-- A clean text without an equals sign is a command that is not bound. -/
theorem readLine_unbound {text : List Char} (h : Clean text) (hequals : '=' ∉ text) :
    readLine text = (readInstr text).map fun i => { binding := none, instr := i } := by
  simp only [readLine, takeWhile_noComment h.noComment, h.trim_eq, splitFirst_none hequals]

/-- A clean text behind a good name and ` = ` is a command bound to the name. -/
theorem readLine_bound {name text : List Char} (hgood : goodName name = true) (h : Clean text) :
    readLine (name ++ ' ' :: '=' :: ' ' :: text) =
      (readInstr text).map fun i => { binding := some name, instr := i } := by
  have hname := clean_goodName hgood
  have hsign : Clean ['='] := ⟨by decide, by decide, by decide, by decide⟩
  have hline : Clean (name ++ ' ' :: '=' :: ' ' :: text) := hname.append_space (hsign.append_space h)
  have hsplit : splitFirst '=' (name ++ ' ' :: '=' :: ' ' :: text) = some (name ++ [' '], ' ' :: text) := by
    obtain ⟨_, _, hequals⟩ := goodName_notMem hgood
    rw [List.append_cons]
    exact splitFirst_append _ (by simp [hequals])
  simp only [readLine, takeWhile_noComment hline.noComment, hline.trim_eq, hsplit, hname.trim_append_space, hgood,
    if_true, trim_cons_space, h.trim_eq]

/-- Settles O40: the writer's command is a clean text that the reader takes whole, with or without a name before it. -/
theorem linesAreReadBack : Obligations.LinesAreReadBack := by
  rintro ⟨binding, i⟩ - hproper hB hname
  have hi : Readable i := readable_of_proper hproper hB
  have hclean := clean_instrText hi
  cases binding with
  | none =>
    rw [lineText, readLine_unbound hclean (equals_notMem_instrText hi), readInstr_instrText hi, Option.map_some]
  | some name =>
    rw [lineText, readLine_bound (hname name rfl) hclean, readInstr_instrText hi, Option.map_some]

end Sys2Proof.Machine
end

section
/-! PROOFS. What engine A's commands answer (40_variant_a.md R50 to R54): one step as a rotation, a run as the
trajectory, and a failed sequence. -/

namespace Sys2Proof.Machine

/-! ### The answers on proper operands -/

theorem answers_aAdvance (b : Bit) (s : State) :
    Answers (.aAdvance (bitInt b)) s (.vector (advanceT s.n s.P s.T b)) :=
  ⟨_, execAAdvance_bit b s, rfl⟩

theorem answers_aRun (bs : List Bit) (s : State) :
    Answers (.aRun (intsOf bs)) s (.snapshots (trajectory s.n s.P s.T bs)) :=
  ⟨_, execARun_proper bs s, rfl⟩

theorem answers_aSigchain (bs : List Bit) (s : State) :
    Answers (.aSigchain (intsOf bs)) s (.bits (chainA s.n s.P bs)) :=
  ⟨_, execASigchain_proper bs s, rfl⟩

/-! ### One step -/

/-- Settles O15: both resets write the same zeros. -/
theorem aResetZeroesTheTriggerVector : Obligations.AResetZeroesTheTriggerVector :=
  fun _ => ⟨_, rfl, rfl, rfl⟩

/-- One step is a rotation to the right with the feedback put in the last position. -/
theorem advanceT_eq_set_rotateRight {n : Nat} {v : List Bit} (hv : v.length = n) (P : List Bit) (b : Bit) :
    advanceT n P v b = (v.rotateRight 1).set (n - 1) (feedback n P v b) := by
  rw [rotateRight_one, hv]
  refine ext_bitAt (by simp) fun i hi => ?_
  rw [advanceT_length] at hi
  rw [advanceT, bitAt_vecOf _ hi, bitAt_set, vecOf_length]
  by_cases hlast : i = n - 1
  · rw [if_pos hlast, if_pos ⟨hlast.symm, hi⟩]
  · rw [if_neg hlast, if_neg (fun h : n - 1 = i ∧ i < n => hlast h.1.symm), bitAt_vecOf _ hi]

/-- Settles O16: the step as a rotation, its feedback as a parity. -/
theorem aAdvanceRotatesAndFeedsBack : Obligations.AAdvanceRotatesAndFeedsBack := by
  intro s b ⟨_, _, hT, _⟩ fb new
  have hnew : advanceT s.n s.P s.T b = new := by
    rw [advanceT_eq_set_rotateRight hT, feedback_eq_oddCount]
  rw [← hnew]
  exact execAAdvance_bit b s

/-- Settles O17: a non-bit only gives its failed response, and a word's operand is one of its bits. -/
theorem aAdvanceFailsExactlyOnNonBits : Obligations.AAdvanceFailsExactlyOnNonBits := by
  intro s v
  refine ⟨fun hbad => ⟨_, execAAdvance_nonBit hbad s⟩, fun hbit => ?answer, fun c operand hdecode => ?word⟩
  case answer =>
    obtain ⟨b, rfl⟩ := isBit_iff_bitInt.1 hbit
    exact ⟨_, answers_aAdvance b s⟩
  case word =>
    obtain ⟨_, hwell⟩ := encodeWord_of_decode hdecode
    exact isBit_iff_bitInt.2 (wellFormed_aAdvance.1 hwell)

/-! ### A run -/

theorem trajectory_head? (n : Nat) (P T bs : List Bit) : (trajectory n P T bs).head? = some T := by
  rw [trajectory_eq_cons, List.head?_cons]

/-- Settles O18: each snapshot after the first is one step from the one before. -/
theorem aRunReturnsTheTrajectory : Obligations.ARunReturnsTheTrajectory := by
  intro s bs
  refine ⟨trajectory s.n s.P s.T bs, ?exec, trajectory_length .., trajectory_head? .., ?step⟩
  case exec =>
    rw [trajectory_getLastD]
    exact execARun_proper bs s
  case step =>
    intro j b v hb hv
    obtain ⟨hj, rfl⟩ := List.getElem?_eq_some_iff.1 hb
    obtain rfl : finalT s.n s.P s.T (bs.take j) = v :=
      Option.some.inj ((trajectory_getElem? s.n s.P s.T bs hj.le).symm.trans hv)
    refine ⟨_, trajectory_getElem? s.n s.P s.T bs hj, ?_⟩
    rw [finalT_take_succ _ _ _ _ hj, bitAt_eq_getElem hj]
    exact execAAdvance_bit bs[j] _

/-- Settles O19: `trajectory_append` and `finalT_append`, read off the three runs. -/
theorem aRunsComposeOverConcatenation : Obligations.ARunsComposeOverConcatenation := by
  intro s bs cs
  refine ⟨_, _, _, _, execARun_proper bs s, rfl, execARun_proper cs _, rfl, ?_⟩
  have hboth := execARun_proper (bs ++ cs) s
  rw [intsOf_append, trajectory_append, finalT_append] at hboth
  exact hboth

/-! ### A failed sequence -/

/-- A.RUN and A.SIGCHAIN on the bits before the first bad element, and on the whole operand. -/
theorem exec_sequenceA_good_bad (s : State) (good : List Bit) {bad : Int} (rest : List Int) (hbad : ¬ IsBit bad)
    {make : List Int → Instr} (hmake : make = Instr.aRun ∨ make = Instr.aSigchain) :
    ∃ v p info, exec (make (intsOf good)) s = .next ((s.withT v).respond (.ok p)) ∧
      exec (make (intsOf good ++ bad :: rest)) s =
        .next ((afterFailure Config.seqFailPolicy s (s.withT v)).respond (.failed .invalidInput info)) := by
  obtain rfl | rfl := hmake
  · exact ⟨_, _, _, execARun_proper good s, execARun_improper good rest hbad s⟩
  · exact ⟨_, _, _, execASigchain_proper good s, execASigchain_improper good rest hbad s⟩

/-- Settles O21: the two values of the policy, for either command. -/
theorem engineASequenceFailureFollowsThePolicy : Obligations.EngineASequenceFailureFollowsThePolicy := by
  intro s good bad rest hbad make hmake
  obtain ⟨v, p, info, hgood, hfail⟩ := exec_sequenceA_good_bad s good rest hbad hmake
  refine ⟨_, info, hgood, fun hatomic => ?_, fun hprefixed => ?_⟩
  · rw [hfail, hatomic]
    rfl
  · rw [hfail, hprefixed]
    rfl

end Sys2Proof.Machine
end

section
/-! PROOFS. Engine A from the all-zero vector (40_variant_a.md R55, R57, R58): everything a run shows is made of the
bits written into the last position, and these tell the input bits. -/

namespace Sys2Proof.Machine

/-! ### The bits written into the last position -/

/-- The last element after the first `j` bits, from the all-zero vector (`f_j` of 40_variant_a.md R55). -/
def writtenBit (n : Nat) (P bs : List Bit) (j : Nat) : Bit := bitAt (finalT n P (zeros n) (bs.take j)) (n - 1)

@[simp] theorem writtenBit_zero (n : Nat) (P bs : List Bit) : writtenBit n P bs 0 = false := by
  simp [writtenBit]

theorem writtenBit_succ {n : Nat} (hn : 1 ≤ n) (P bs : List Bit) {j : Nat} (hj : j < bs.length) :
    writtenBit n P bs (j + 1) = feedback n P (finalT n P (zeros n) (bs.take j)) (bitAt bs j) := by
  rw [writtenBit, finalT_take_succ _ _ _ _ hj, bitAt_advanceT_last hn]

/-- Position 0 shows, one step later, what stood in the last position. -/
theorem bitAt_finalT_zero {n : Nat} (hn : 2 ≤ n) (P bs : List Bit) {j : Nat} (hj : j < bs.length) :
    bitAt (finalT n P (zeros n) (bs.take (j + 1))) 0 = writtenBit n P bs j := by
  rw [finalT_take_succ _ _ _ _ hj, bitAt_advanceT_zero hn, writtenBit]

/-- Position `i` shows what was written `i + 1` steps ago; before the first step that is 0. -/
theorem bitAt_finalT_eq_writtenBit {n i j : Nat} {bs : List Bit} (P : List Bit) (hi : i + 2 ≤ n)
    (hj : j ≤ bs.length) : bitAt (finalT n P (zeros n) (bs.take j)) i = writtenBit n P bs (j - 1 - i) := by
  induction j generalizing i with
  | zero => simp
  | succ j ih =>
    cases i with
    | zero => exact bitAt_finalT_zero hi P bs hj
    | succ i =>
      rw [finalT_take_succ _ _ _ _ hj, bitAt_advanceT_succ hi, ih (by omega) (by omega)]
      congr 1
      omega

/-! ### The recurrence -/

theorem oddCount_succ (n : Nat) (f : Nat → Bool) : oddCount (n + 1) f = xor (oddCount n f) (f n) := by
  simp [← xorReduce_range, List.range_succ, xorReduce_append, xorReduce]

theorem oddCount_congr {n : Nat} {f g : Nat → Bool} (h : ∀ i < n, f i = g i) : oddCount n f = oddCount n g := by
  rw [← xorReduce_range, ← xorReduce_range, List.map_congr_left fun i hi => h i (List.mem_range.1 hi)]

theorem writtenBit_recurrence {n j : Nat} {bs : List Bit} (hn : 1 ≤ n) (P : List Bit) (hj : j < bs.length) :
    writtenBit n P bs (j + 1) = xor (bitAt bs j) (xor (bitAt P (n - 1) && writtenBit n P bs j)
      (oddCount (n - 1) fun i => bitAt P i && writtenBit n P bs (j - 1 - i))) := by
  have hlower : oddCount (n - 1) (fun i => bitAt (finalT n P (zeros n) (bs.take j)) i && bitAt P i) =
      oddCount (n - 1) fun i => bitAt P i && writtenBit n P bs (j - 1 - i) :=
    oddCount_congr fun i hi => by
      rw [bitAt_finalT_eq_writtenBit P (by omega) hj.le, Bool.and_comm]
  obtain ⟨m, rfl⟩ := Nat.exists_eq_add_of_le' hn
  rw [writtenBit_succ hn P bs hj, feedback_eq_oddCount, oddCount_succ, ← hlower, writtenBit, Nat.add_sub_cancel,
    Bool.xor_comm, Bool.xor_comm (oddCount _ _), Bool.and_comm]

theorem trajectory_getD (n : Nat) (P T bs : List Bit) {j : Nat} (hj : j ≤ bs.length) :
    (trajectory n P T bs).getD j [] = finalT n P T (bs.take j) := by
  rw [List.getD_eq_getElem?_getD, trajectory_getElem? _ _ _ _ hj, Option.getD_some]

/-- Settles O22, with the written bits as `f`. -/
theorem engineAComputesItsRecurrence : Obligations.EngineAComputesItsRecurrence := by
  intro s bs ⟨hn, _⟩ hT
  have hanswer := answers_aRun bs s
  rw [hT] at hanswer
  refine ⟨_, fun j => writtenBit s.n s.P bs j.toNat, hanswer, fun j hj => ?nonpositive, fun j hj => ?recurrence,
    fun j hj => ?snapshot⟩
  case nonpositive => simp [Int.toNat_of_nonpos hj]
  case recurrence =>
    have hdelay (i : Nat) : ((j : Int) - 1 - i).toNat = j - 1 - i := by omega
    simp only [hdelay]
    exact writtenBit_recurrence hn s.P hj
  case snapshot =>
    rw [trajectory_getD _ _ _ _ hj]
    refine ⟨rfl, fun i hi => (bitAt_finalT_eq_writtenBit s.P hi hj).trans ?_⟩
    congr 1
    omega

/-! ### Linearity -/

theorem trajectory_xor {n : Nat} (P : List Bit) {v w bs cs : List Bit} (hv : v.length = n) (hw : w.length = n)
    (h : bs.length = cs.length) : trajectory n P (List.zipWith xor v w) (List.zipWith xor bs cs) =
      List.zipWith (List.zipWith xor) (trajectory n P v bs) (trajectory n P w cs) := by
  induction bs generalizing v w cs with
  | nil =>
    obtain rfl := List.eq_nil_of_length_eq_zero h.symm
    rfl
  | cons b bs ih =>
    obtain ⟨c, cs, rfl⟩ := List.exists_cons_of_length_eq_add_one h.symm
    have hstep := ih (advanceT_length n P v b) (advanceT_length n P w c) (Nat.succ.inj h)
    rw [← advanceT_xor P hv hw] at hstep
    simp only [trajectory, List.zipWith_cons_cons, hstep]

/-- Settles O23: a run from zeros is a run from the XOR of two zero vectors. -/
theorem engineAIsLinear : Obligations.EngineAIsLinear := by
  intro s bs cs ⟨_, _, hlength, _⟩ hT h
  have hzero : List.zipWith xor s.T s.T = s.T := by
    rw [hT, List.zipWith_replicate', Bool.xor_self]
  refine ⟨_, _, answers_aRun bs s, answers_aRun cs s, ?_⟩
  rw [← trajectory_xor s.P hlength hlength h, hzero]
  exact answers_aRun _ s

/-! ### The chain -/

theorem chainA_eq_map (n : Nat) (P bs : List Bit) : chainA n P bs =
    (List.range (bs.length + 1)).map fun j => bitAt (finalT n P (zeros n) (bs.take j)) 0 := by
  rw [chainA, trajectory_eq_map, List.map_map]
  rfl

theorem chainA_nil (n : Nat) (P : List Bit) : chainA n P [] = [false] := by
  simp [chainA, trajectory]

/-- For `n >= 2` the chain is a 0 and then the written bits, all but the last one. -/
theorem chainA_eq_cons {n : Nat} (hn : 2 ≤ n) (P bs : List Bit) :
    chainA n P bs = false :: (List.range bs.length).map (writtenBit n P bs) := by
  rw [chainA_eq_map, List.range_succ_eq_map, List.map_cons, List.map_map, List.take_zero, finalT_nil, bitAt_zeros]
  congr 1
  exact List.map_congr_left fun j hj => bitAt_finalT_zero hn P bs (List.mem_range.1 hj)

/-- For `n = 1` the last position is position 0, and the chain holds every written bit. -/
theorem chainA_width_one (P bs : List Bit) :
    chainA 1 P bs = (List.range (bs.length + 1)).map (writtenBit 1 P bs) :=
  chainA_eq_map 1 P bs

/-- Settles O24: the chain's elements are the snapshots' heads. -/
theorem chainAShowsTheWrittenValues : Obligations.ChainAShowsTheWrittenValues := by
  intro s bs _
  refine ⟨_, _, answers_aRun bs _, answers_aSigchain bs s, chainA_length .., ?first, fun hn j hj => ?late,
    fun hn j hj => ?widthOne⟩
  case first => rw [bitAt_chainA _ _ _ (Nat.zero_le _), List.take_zero, finalT_nil, bitAt_zeros]
  case late =>
    rw [bitAt_chainA _ _ _ hj, bitAt_finalT_zero hn _ _ hj, trajectory_getD _ _ _ _ hj.le]
    rfl
  case widthOne =>
    rw [bitAt_chainA _ _ _ hj, trajectory_getD _ _ _ _ hj]
    rfl

/-- The written bits tell the input bits: each by the feedback, the vector before it being known. -/
theorem take_eq_of_writtenBit_eq {n m : Nat} {P bs cs : List Bit} (hn : 1 ≤ n) (hbs : m ≤ bs.length)
    (hcs : m ≤ cs.length) (h : ∀ j ≤ m, writtenBit n P bs j = writtenBit n P cs j) : bs.take m = cs.take m := by
  induction m with
  | zero => rfl
  | succ m ih =>
    have hbefore := ih (by omega) (by omega) fun j hj => h j (by omega)
    have hbit : bitAt bs m = bitAt cs m := by
      have hwritten := h (m + 1) le_rfl
      rw [writtenBit_succ hn P bs hbs, writtenBit_succ hn P cs hcs, hbefore] at hwritten
      exact feedback_injective hwritten
    rw [bitAt_eq_getElem hbs, bitAt_eq_getElem hcs] at hbit
    rw [← List.take_concat_get' bs m hbs, ← List.take_concat_get' cs m hcs, hbefore, hbit]

/-- The first `m` written bits agree exactly when the inputs before them do. -/
theorem map_writtenBit_eq_iff {n m : Nat} {P bs cs : List Bit} (hn : 1 ≤ n) (h : bs.length = cs.length)
    (hm : m ≤ bs.length + 1) :
    (List.range m).map (writtenBit n P bs) = (List.range m).map (writtenBit n P cs) ↔
      bs.take (m - 1) = cs.take (m - 1) := by
  rw [List.map_inj_left]
  constructor
  · intro hwritten
    refine take_eq_of_writtenBit_eq (P := P) hn (by omega) (by omega) fun j hj => ?_
    rcases Nat.eq_zero_or_pos m with rfl | hpos
    · obtain rfl : j = 0 := by omega
      simp
    · exact hwritten j (List.mem_range.2 (by omega))
  · intro hinput j hj
    have hjm : min j (m - 1) = j := min_eq_left (Nat.le_sub_one_of_lt (List.mem_range.1 hj))
    rw [writtenBit, writtenBit, ← hjm, ← List.take_take, ← List.take_take, hinput]

/-- Settles O25: the chain as the written bits, which tell every input bit before the last one shown. -/
theorem chainAIsBlindToTheLastBitOnly : Obligations.ChainAIsBlindToTheLastBitOnly := by
  intro s bs cs ⟨hpos, _⟩ h
  refine ⟨_, _, answers_aSigchain bs s, answers_aSigchain cs s, fun hn => ?wide, fun hn => ?widthOne⟩
  case wide =>
    rw [chainA_eq_cons hn, chainA_eq_cons hn, List.cons_inj_right, ← h, map_writtenBit_eq_iff hpos h (by omega),
      List.dropLast_eq_take, List.dropLast_eq_take, h]
  case widthOne =>
    rw [hn, chainA_width_one, chainA_width_one, ← h, map_writtenBit_eq_iff le_rfl h le_rfl, Nat.add_sub_cancel,
      List.take_length, h, List.take_length]

/-! ### The laws of the signatures -/

/-- Settles O26: both chains and the registers they leave are functions of the width, the polynomial and the operand. -/
theorem signaturesObeyTheThreeLaws : Obligations.SignaturesObeyTheThreeLaws := by
  intro s s' bs hn hP
  refine ⟨⟨chainA s.n s.P bs, _, execASigchain_proper bs s, ?againA, chainA_length .., ?empty⟩,
    ⟨chainB s.n s.P bs, _, _, execBSigchain_proper bs s, ?againB, chainB_length ..⟩,
    ⟨_, answers_aRun bs s, trajectory_length .., trajectory_head? ..⟩, ⟨_, rfl, rfl⟩⟩
  case againA =>
    rw [hn, hP]
    exact execASigchain_proper bs s'
  case empty =>
    rintro rfl
    exact chainA_nil ..
  case againB =>
    rw [State.taps, hn, hP]
    exact execBSigchain_proper bs s'

end Sys2Proof.Machine
end

section
/-! PROOFS. What engine B's commands answer (41_variant_b.md R65 to R72): one step of the pair, the operand as far as it
is consumed, and a failed sequence. -/

namespace Sys2Proof.Machine

theorem answers_bSigchain (bs : List Bit) (s : State) :
    Answers (.bSigchain (intsOf bs)) s (.bits (chainB s.n s.P bs)) :=
  ⟨_, execBSigchain_proper bs s, rfl⟩

/-! ### Reset, and one step -/

/-- Settles O27: both resets write the same zeros. -/
theorem bResetZeroesTheRegisterPair : Obligations.BResetZeroesTheRegisterPair :=
  fun _ => ⟨_, rfl, rfl, rfl⟩

/-- Settles O28: `shiftR_eq_cons` and `emitted_eq_getLastD`, for each register. -/
theorem bStep2ShiftsBothRegisters : Obligations.BStep2ShiftsBothRegisters := by
  intro s x0 x1 ⟨hn, _, _, h1, h2⟩ inserted
  have hstep := execBStep2_bits x0 x1 s
  rw [State.taps, shiftR_eq_cons hn s.P h1, shiftR_eq_cons hn s.P h2, emitted_eq_getLastD h1,
    emitted_eq_getLastD h2] at hstep
  exact hstep

/-- Settles O29: a non-bit only gives its failed response, and a word's operands are two of its bits. -/
theorem bStep2FailsExactlyOnNonBits : Obligations.BStep2FailsExactlyOnNonBits := by
  intro s x0 x1
  refine ⟨fun hbad => execBStep2_nonBit hbad s, fun ⟨h0, h1⟩ => ?answer, fun c operand hdecode => ?word⟩
  case answer =>
    obtain ⟨a, rfl⟩ := isBit_iff_bitInt.1 h0
    obtain ⟨b, rfl⟩ := isBit_iff_bitInt.1 h1
    exact ⟨_, _, _, execBStep2_bits a b s, rfl⟩
  case word =>
    obtain ⟨_, hwell⟩ := encodeWord_of_decode hdecode
    obtain ⟨h0, h1⟩ := wellFormed_bStep2.1 hwell
    exact ⟨isBit_iff_bitInt.2 h0, isBit_iff_bitInt.2 h1⟩

/-! ### The operand as far as it is consumed -/

/-- Of its operand B.SIGCHAIN reads the consumed part only. -/
theorem execBSigchain_congr {operand operand' : List Int} (h : consumed operand = consumed operand') (s : State) :
    execBSigchain operand s = execBSigchain operand' s := by
  simp only [execBSigchain, h]

/-- Settles O31: the consumed part is the operand of even length, with or without the element after it. -/
theorem bSigchainIgnoresAnOddTail : Obligations.BSigchainIgnoresAnOddTail := fun s _ e heven =>
  execBSigchain_congr ((consumed_append_singleton e heven).trans (consumed_of_even heven).symm) s

/-- A bad element among those consumed is the first bad one of the consumed part. -/
theorem consumed_good_bad {good : List Bit} {rest : List Int} (bad : Int)
    (h : good.length < 2 * ((good.length + 1 + rest.length) / 2)) :
    ∃ rest', consumed (intsOf good ++ bad :: rest) = intsOf good ++ bad :: rest' := by
  have hlength : (intsOf good ++ bad :: rest).length = good.length + 1 + rest.length := by simp; omega
  obtain ⟨k, hk⟩ := Nat.exists_eq_add_of_lt h
  rw [consumed, hlength, hk, show good.length + k + 1 = (intsOf good).length + (k + 1) by simp; omega,
    List.take_length_add_append, List.take_succ_cons]
  exact ⟨_, rfl⟩

/-- Settles O32: the two values of the policy. -/
theorem engineBSequenceFailureFollowsThePolicy : Obligations.EngineBSequenceFailureFollowsThePolicy := by
  intro s good bad rest hbad hconsumed
  obtain ⟨rest', hrest⟩ := consumed_good_bad bad hconsumed
  have hfail := execBSigchain_improper hrest hbad s
  refine ⟨_, ⟨bad, some good.length⟩, execBSigchain_proper good s, fun hatomic => ?_, fun hprefixed => ?_⟩
  · rw [hatomic] at hfail
    exact hfail
  · rw [hprefixed] at hfail
    exact hfail

end Sys2Proof.Machine
end

section
/-! PROOFS. Engine B from all-zero registers (41_variant_b.md R73): each register shows the bits written into its front,
and these tell its input bits. -/

namespace Sys2Proof.Machine

/-! ### One register: the bits written into its front -/

/-- The front element of a register after its first `j` inputs, from zeros: `v (j - 1)` of 41_variant_b.md R73. -/
def frontBit (n : Nat) (P xs : List Bit) (j : Nat) : Bit :=
  bitAt (finalR n (tapsOf n P) (zeros n) (xs.take j)) 0

@[simp] theorem frontBit_zero (n : Nat) (P xs : List Bit) : frontBit n P xs 0 = false := by
  simp [frontBit, finalR]

theorem frontBit_succ {n : Nat} (hn : 1 ≤ n) (P xs : List Bit) {j : Nat} (hj : j < xs.length) :
    frontBit n P xs (j + 1) =
      foldTaps (tapsOf n P) (finalR n (tapsOf n P) (zeros n) (xs.take j)) (bitAt xs j) := by
  rw [frontBit, finalR_take_succ _ _ _ _ hj, bitAt_shiftR_zero hn]

/-- Position `i` shows what was written `i` steps before the last one; before the first step that is 0. -/
theorem bitAt_finalR_eq_frontBit {n i j : Nat} {xs : List Bit} (P : List Bit) (hi : i < n) (hj : j ≤ xs.length) :
    bitAt (finalR n (tapsOf n P) (zeros n) (xs.take j)) i = frontBit n P xs (j - i) := by
  induction j generalizing i with
  | zero => simp [finalR]
  | succ j ih =>
    cases i with
    | zero => rfl
    | succ i => rw [finalR_take_succ _ _ _ _ hj, bitAt_shiftR_succ hi, ih (by omega) (by omega), Nat.add_sub_add_right]

theorem frontBit_recurrence {n j : Nat} {xs : List Bit} (hn : 1 ≤ n) (P : List Bit) (hj : j < xs.length) :
    frontBit n P xs (j + 1) =
      xor (bitAt xs j) (oddCount n fun i => bitAt P i && frontBit n P xs (j - (n - i - 1))) := by
  rw [frontBit_succ hn P xs hj, foldTaps_eq_oddCount]
  congr 1
  exact oddCount_congr fun i hi => by rw [bitAt_finalR_eq_frontBit P (by omega) hj.le]

/-- The bits written tell the inputs: each by the inserted value, the register before it being known. -/
theorem take_eq_of_frontBit_eq {n m : Nat} {P xs ys : List Bit} (hn : 1 ≤ n) (hxs : m ≤ xs.length)
    (hys : m ≤ ys.length) (h : ∀ j ≤ m, frontBit n P xs j = frontBit n P ys j) : xs.take m = ys.take m := by
  induction m with
  | zero => rfl
  | succ m ih =>
    have hbefore := ih (by omega) (by omega) fun j hj => h j (by omega)
    have hbit : bitAt xs m = bitAt ys m := by
      have hfront := h (m + 1) le_rfl
      rw [frontBit_succ hn P xs hxs, frontBit_succ hn P ys hys, hbefore] at hfront
      exact foldTaps_injective hfront
    rw [bitAt_eq_getElem hxs, bitAt_eq_getElem hys] at hbit
    rw [← List.take_concat_get' xs m hxs, ← List.take_concat_get' ys m hys, hbefore, hbit]

theorem frontBit_eq_of_take_eq {n m j : Nat} {P xs ys : List Bit} (h : xs.take m = ys.take m) (hj : j ≤ m) :
    frontBit n P xs j = frontBit n P ys j := by
  rw [frontBit, frontBit, ← min_eq_left hj, ← List.take_take, ← List.take_take, h]

/-- A register from the XOR of two vectors, on the XOR of two input streams. -/
theorem finalR_xor {n : Nat} (taps : List Nat) {R S xs ys : List Bit} (hR : R.length = S.length)
    (h : xs.length = ys.length) : finalR n taps (List.zipWith xor R S) (List.zipWith xor xs ys) =
      List.zipWith xor (finalR n taps R xs) (finalR n taps S ys) := by
  induction xs generalizing R S ys with
  | nil =>
    obtain rfl := List.eq_nil_of_length_eq_zero h.symm
    rfl
  | cons x xs ih =>
    obtain ⟨y, ys, rfl⟩ := List.exists_cons_of_length_eq_add_one h.symm
    rw [List.zipWith_cons_cons, finalR, shiftR_xor n taps hR, ih (by simp) (Nat.succ.inj h)]
    rfl

theorem finalR_zeros_xor (n : Nat) (taps : List Nat) {xs ys : List Bit} (h : xs.length = ys.length) :
    finalR n taps (zeros n) (List.zipWith xor xs ys) =
      List.zipWith xor (finalR n taps (zeros n) xs) (finalR n taps (zeros n) ys) := by
  rw [← finalR_xor taps rfl h, zeros, List.zipWith_replicate', Bool.xor_self]

/-! ### Two interleaved streams -/

/-- A property of every element of two interleaved streams, stream by stream. -/
theorem forall_lt_two_mul {m : Nat} {p : Nat → Prop} :
    (∀ i < 2 * m, p i) ↔ ∀ r < 2, ∀ j < m, p (2 * j + r) := by
  constructor
  · intro h r hr j hj
    exact h _ (by omega)
  · intro h i hi
    have hpart := h (i % 2) (Nat.mod_lt _ two_pos) (i / 2) (by omega)
    rwa [Nat.div_add_mod] at hpart

theorem take_eq_iff_bitAt {v w : List Bit} {k : Nat} (hv : k ≤ v.length) (hw : k ≤ w.length) :
    v.take k = w.take k ↔ ∀ i < k, bitAt v i = bitAt w i := by
  constructor
  · intro h i hi
    rw [← bitAt_take hi, h, bitAt_take hi]
  · intro h
    refine ext_bitAt (by simp; omega) fun i hi => ?_
    have hik : i < k := by simp at hi; omega
    rw [bitAt_take hik, bitAt_take hik, h i hik]

/-- Two sequences agree on their first `m` pairs exactly when each register's first `m` inputs agree. -/
theorem take_eq_iff_inputsOf_take_eq {bs cs : List Bit} {m : Nat} (hbs : m ≤ bs.length / 2)
    (hcs : m ≤ cs.length / 2) : bs.take (2 * m) = cs.take (2 * m) ↔
      ∀ r < 2, (inputsOf bs r).take m = (inputsOf cs r).take m := by
  rw [take_eq_iff_bitAt (by omega) (by omega), forall_lt_two_mul]
  refine forall₂_congr fun r hr => ?_
  rw [take_eq_iff_bitAt (by rwa [inputsOf_length]) (by rwa [inputsOf_length])]
  refine forall₂_congr fun j hj => ?_
  rw [bitAt_inputsOf hr (by omega), bitAt_inputsOf hr (by omega)]

theorem inputsOf_xor {bs cs : List Bit} (h : bs.length = cs.length) {r : Nat} (hr : r < 2) :
    inputsOf (List.zipWith xor bs cs) r = List.zipWith xor (inputsOf bs r) (inputsOf cs r) := by
  have hxor : (List.zipWith xor bs cs).length = bs.length := by simp [h]
  have hinputs : (inputsOf bs r).length = (inputsOf cs r).length := by rw [inputsOf_length, inputsOf_length, h]
  refine ext_bitAt (by simp [inputsOf_length, h]) fun j hj => ?_
  rw [inputsOf_length, hxor] at hj
  rw [bitAt_inputsOf hr (hxor ▸ hj), bitAt_zipWith_xor h, bitAt_zipWith_xor hinputs, bitAt_inputsOf hr hj,
    bitAt_inputsOf hr (h ▸ hj)]

/-! ### The chain -/

/-- A register emits what was written into its front `n` steps ago. -/
theorem bitAt_chainB_eq_frontBit {n r j : Nat} {bs : List Bit} (hn : 1 ≤ n) (P : List Bit) (hr : r < 2)
    (hj : j < bs.length / 2) : bitAt (chainB n P bs) (2 * j + r) = frontBit n P (inputsOf bs r) (j - (n - 1)) := by
  rw [bitAt_chainB n P bs hr hj, bitAt_finalR_eq_frontBit P (by omega) (by rw [inputsOf_length]; exact hj.le)]

/-- Each register of the pair after the whole operand, on its own inputs. -/
theorem finalPair_pairsOf (n : Nat) (taps : List Nat) (R bs : List Bit) :
    finalPair n taps (R, R) (pairsOf bs) = (finalR n taps R (inputsOf bs 0), finalR n taps R (inputsOf bs 1)) :=
  finalPair_eq ..

/-- The bit register `r` inserts at step `j`, from zeros; 0 before the first step (`v j` of 41_variant_b.md R73). -/
def insertedBit (n : Nat) (P bs : List Bit) (r : Nat) (j : Int) : Bit := frontBit n P (inputsOf bs r) (j + 1).toNat

theorem frontBit_eq_insertedBit {n r k : Nat} {P bs : List Bit} {j : Int} (h : (j + 1).toNat = k) :
    frontBit n P (inputsOf bs r) k = insertedBit n P bs r j :=
  congrArg _ h.symm

/-- Settles O33, with the bits that register `r` inserts as `v r`. -/
theorem engineBComputesItsRecurrence : Obligations.EngineBComputesItsRecurrence := by
  intro s bs ⟨hn, _⟩
  refine ⟨_, _, insertedBit s.n s.P bs, execBSigchain_proper bs s, rfl, chainB_length .., fun r hr => ?_⟩
  have hlength := inputsOf_length bs r
  refine ⟨fun j hj => ?negative, fun j hj => ?recurrence, fun j hj => ?emitted, fun j hj => ?final⟩
  case negative => rw [← frontBit_eq_insertedBit (k := 0) (by omega), frontBit_zero]
  case recurrence =>
    rw [← frontBit_eq_insertedBit (k := j + 1) (by omega), frontBit_recurrence hn s.P (hlength.symm ▸ hj),
      bitAt_inputsOf hr hj]
    exact congrArg _ (oddCount_congr fun i hi => congrArg _ (frontBit_eq_insertedBit (by omega)))
  case emitted =>
    rw [bitAt_chainB_eq_frontBit hn s.P hr hj]
    exact frontBit_eq_insertedBit (by omega)
  case final =>
    have hfinal := bitAt_finalR_eq_frontBit s.P hj hlength.ge
    rw [← hlength, List.take_length, hlength] at hfinal
    rw [← frontBit_eq_insertedBit (k := bs.length / 2 - j) (by omega), ← hfinal, finalPair_pairsOf]
    rcases (show r = 0 ∨ r = 1 by omega) with rfl | rfl <;> rfl

/-- The chain of an XOR: element by element, by `finalR_zeros_xor` on each register's inputs. -/
theorem chainB_xor (n : Nat) (P : List Bit) {bs cs : List Bit} (h : bs.length = cs.length) :
    chainB n P (List.zipWith xor bs cs) = List.zipWith xor (chainB n P bs) (chainB n P cs) := by
  have hxor : (List.zipWith xor bs cs).length = bs.length := by simp [h]
  refine ext_bitAt (by simp [h]) ?_
  rw [chainB_length, forall_lt_two_mul, hxor]
  intro r hr j hj
  rw [bitAt_zipWith_xor (by simp [h]), bitAt_chainB n P _ hr (hxor ▸ hj), bitAt_chainB n P bs hr hj,
    bitAt_chainB n P cs hr (h ▸ hj), inputsOf_xor h hr, List.take_zipWith,
    finalR_zeros_xor _ _ (by simp [inputsOf_length, h]), bitAt_zipWith_xor (by simp [finalR_length])]

/-- Settles O34: the chain of the XOR is the XOR of the chains. -/
theorem engineBIsLinear : Obligations.EngineBIsLinear := by
  intro s bs cs _ h
  refine ⟨_, _, answers_bSigchain bs s, answers_bSigchain cs s, ?_⟩
  rw [← chainB_xor s.n s.P h]
  exact answers_bSigchain _ s

/-- The first `2n` elements of the chain were there before the first input. -/
theorem bitAt_chainB_early {n : Nat} (hn : 1 ≤ n) (P bs : List Bit) : ∀ i < 2 * n, bitAt (chainB n P bs) i = false := by
  rw [forall_lt_two_mul]
  intro r hr j hj
  by_cases hshown : j < bs.length / 2
  · rw [bitAt_chainB_eq_frontBit hn P hr hshown, Nat.sub_eq_zero_of_le (by omega), frontBit_zero]
  · exact bitAt_of_length_le (by rw [chainB_length]; omega)

/-- The chain shows each register's front bits before its last `n` inputs, and those show the inputs. -/
theorem chainB_eq_iff {n : Nat} {P bs cs : List Bit} (hn : 1 ≤ n) (h : bs.length = cs.length) :
    chainB n P bs = chainB n P cs ↔
      ∀ r < 2, (inputsOf bs r).take (bs.length / 2 - n) = (inputsOf cs r).take (bs.length / 2 - n) := by
  constructor
  · intro hchain r hr
    refine take_eq_of_frontBit_eq (P := P) hn (by rw [inputsOf_length]; omega) (by rw [inputsOf_length]; omega)
      fun j hj => ?_
    rcases Nat.eq_zero_or_pos j with rfl | hpos
    · simp
    · have hshown : j + (n - 1) < bs.length / 2 := by omega
      have hbit := congrArg (bitAt · (2 * (j + (n - 1)) + r)) hchain
      rwa [bitAt_chainB_eq_frontBit hn P hr hshown, bitAt_chainB_eq_frontBit hn P hr (h ▸ hshown),
        Nat.add_sub_cancel] at hbit
  · intro hinput
    refine ext_bitAt (by simp [h]) ?_
    rw [chainB_length, forall_lt_two_mul]
    intro r hr j hj
    rw [bitAt_chainB_eq_frontBit hn P hr hj, bitAt_chainB_eq_frontBit hn P hr (h ▸ hj)]
    exact frontBit_eq_of_take_eq (hinput r hr) (by omega)

/-- Settles O35: the first elements are zeros, and the others tell each register's inputs but the last `n`. -/
theorem chainBIsBlindToTheTail : Obligations.ChainBIsBlindToTheTail := by
  intro s bs cs ⟨hn, _⟩ h
  refine ⟨_, _, answers_bSigchain bs s, answers_bSigchain cs s, bitAt_chainB_early hn s.P bs, ?_⟩
  rw [chainB_eq_iff hn h, ← Nat.mul_sub, take_eq_iff_inputsOf_take_eq (Nat.sub_le ..) (h ▸ Nat.sub_le ..)]

end Sys2Proof.Machine
end

section
/-! PROOFS. The mask generator (42_mask_generator.md R80 to R89), and what COMPUTE_ALIASES shares with it (R94, R96): the
orders that GEN_ORDER admits, which sequences the candidates are, and what each error count and reference is answered. -/

namespace Sys2Proof.Machine

/-! ### The orders of generation -/

/-- The draw for a permutation says, for each mask, its index among those from it on. -/
theorem exists_arrange_eq {l l' : List (List Bit)} (h : l'.Perm l) : ∃ draw, arrange draw l = l' := by
  induction l generalizing l' with
  | nil => exact ⟨fun _ => 0, h.eq_nil.symm⟩
  | cons x xs ih =>
    obtain ⟨i, hi, rfl⟩ := List.getElem_of_mem (h.mem_iff.2 List.mem_cons_self)
    obtain ⟨draw, hdraw⟩ := ih ((List.getElem_cons_eraseIdx_perm hi).trans h).cons_inv
    have hplace : i < xs.length + 1 := hi.trans_eq h.length_eq
    have hrest : arrange (Function.update draw xs.length i) xs = l'.eraseIdx i := by
      rw [← hdraw]
      exact arrange_congr fun j hj => Function.update_of_ne hj.ne _ _
    refine ⟨Function.update draw xs.length i, ?_⟩
    rw [arrange, hrest, Function.update_self, Nat.mod_eq_of_lt hplace, List.insertIdx_eraseIdx_getElem hi]

/-- Settles O49: a draw gives a permutation, and a permutation has its draw. -/
theorem everyGenerationOrderIsADraw : Obligations.EveryGenerationOrderIsADraw := by
  refine fun l l' => ⟨exists_arrange_eq, ?_⟩
  rintro ⟨draw, rfl⟩
  exact arrange_perm draw l

/-! ### The candidates -/

theorem zipWith_xor_cancel_swap {v w : List Bit} (h : v.length = w.length) :
    List.zipWith xor v (List.zipWith xor w v) = w := by
  rw [List.zipWith_comm_of_comm Bool.xor_comm (l := v), List.zipWith_comm_of_comm Bool.xor_comm (l := w),
    zipWith_xor_cancel h]

/-- Sequences whose first `d` elements agree differ only in what follows them. -/
theorem differences_eq_count_drop {x y : List Bit} {d : Nat} (hlength : x.length = y.length)
    (htake : x.take d = y.take d) :
    differences x y = (List.zipWith xor (x.drop d) (y.drop d)).count true := by
  have hagree : (List.zipWith xor (x.take d) (y.take d)).count true = 0 := by
    simp [htake, List.count_replicate]
  rw [differences_eq_count hlength, ← List.take_append_drop d (List.zipWith xor x y), List.count_append,
    List.take_zipWith, List.drop_zipWith, hagree, Nat.zero_add]

section
variable {ref : List Bit} {w : Nat} (hw : w ≤ ref.length)
include hw

/-- What a mask makes of the reference tells the mask: it is the XOR of the two windows. -/
theorem applyMask_eq_iff {m x : List Bit} (hm : m.length = w) :
    applyMask ref m w = x ↔ x.length = ref.length ∧ x.take (ref.length - w) = ref.take (ref.length - w) ∧
      List.zipWith xor (x.drop (ref.length - w)) (ref.drop (ref.length - w)) = m := by
  have hwindow : (ref.drop (ref.length - w)).length = w := by rw [List.length_drop]; omega
  constructor
  · rintro rfl
    refine ⟨applyMask_length ref m w, applyMask_take ref m w, ?_⟩
    rw [applyMask_drop hw hm, zipWith_xor_cancel (hwindow.trans hm.symm)]
  · rintro ⟨hlength, htake, hmask⟩
    have hdrop : (ref.drop (ref.length - w)).length = (x.drop (ref.length - w)).length := by
      rw [List.length_drop, List.length_drop, hlength]
    rw [← List.take_append_drop (ref.length - w) (applyMask ref m w), applyMask_take, applyMask_drop hw hm, ← hmask,
      ← htake, zipWith_xor_cancel_swap hdrop, List.take_append_drop]

theorem mem_candidates {draw : Nat → Nat} {k : Nat} {x : List Bit} :
    x ∈ candidates draw ref k w ↔ x.length = ref.length ∧
      x.take (ref.length - w) = ref.take (ref.length - w) ∧ differences x ref = k := by
  simp only [candidates, List.mem_map, (arrange_perm draw _).mem_iff, mem_masks]
  constructor
  · rintro ⟨m, ⟨hm, hk⟩, hx⟩
    obtain ⟨hlength, htake, hmask⟩ := (applyMask_eq_iff hw hm).1 hx
    exact ⟨hlength, htake, by rw [differences_eq_count_drop hlength htake, hmask, hk]⟩
  · rintro ⟨hlength, htake, hk⟩
    have hm : (List.zipWith xor (x.drop (ref.length - w)) (ref.drop (ref.length - w))).length = w := by
      simp only [List.length_zipWith, List.length_drop]; omega
    rw [differences_eq_count_drop hlength htake] at hk
    exact ⟨_, ⟨hm, hk⟩, (applyMask_eq_iff hw hm).2 ⟨hlength, htake, rfl⟩⟩

/-- No two masks make the same candidate. -/
theorem candidates_nodup (draw : Nat → Nat) (k : Nat) : (candidates draw ref k w).Nodup := by
  refine List.Nodup.map_on ?_ ((arrange_perm draw _).nodup_iff.2 (masks_nodup w k))
  intro m hm m' hm' heq
  rw [(arrange_perm draw _).mem_iff, mem_masks] at hm hm'
  obtain ⟨-, -, hmask⟩ := (applyMask_eq_iff hw hm.1).1 heq
  obtain ⟨-, -, hmask'⟩ := (applyMask_eq_iff hw hm'.1).1 rfl
  exact hmask.symm.trans hmask'

/-- The mask with no ones flips nothing. -/
theorem applyMask_zero : applyMask ref (List.replicate w false) w = ref := by
  rw [applyMask_eq_xor hw List.length_replicate, List.replicate_append_replicate, Nat.sub_add_cancel hw,
    zipWith_xor_zeros]

theorem candidates_zero (draw : Nat → Nat) : candidates draw ref 0 w = [ref] := by
  rw [candidates, masks_zero, arrange_singleton, List.map_singleton, applyMask_zero hw]

end

theorem candidates_length (draw : Nat → Nat) (ref : List Bit) (k w : Nat) :
    (candidates draw ref k w).length = w.choose k := by
  rw [candidates, List.length_map, (arrange_perm draw _).length_eq, masks_length]

/-- Settles O41: GENMASKS answers the candidates, whatever the draw. -/
theorem genMasksGivesEveryCandidateOnce : Obligations.GenMasksGivesEveryCandidateOnce := by
  intro s ref k mode hk hw
  exact ⟨_, genMasks_proper s hk hw, candidates_length _ ref k _, candidates_nodup hw _ k, fun _ => mem_candidates hw⟩

/-! ### What each error count and reference is answered -/

section
variable (s : State) (mode : ChannelMode)

theorem genMasks_outside {k : Int} (hk : k < 0 ∨ 4 < k) (ref : List Int) :
    genMasks ref k mode s = .next (s.failCount k) := by
  rw [genMasks, errorCount_outside hk]

theorem computeAliases_outside {k : Int} (hk : k < 0 ∨ 4 < k) :
    computeAliases mode k s = .next (s.failCount k) := by
  rw [computeAliases, errorCount_outside hk]

section
variable {k : Nat} (hk : k ≤ 4)
include hk

theorem genMasks_improper {ref : List Int} (href : ¬ Proper ref) :
    genMasks ref k mode s = .refused .improperReference := by
  obtain ⟨bs, rfl, -⟩ | ⟨-, good, info, hcheck⟩ := checkSeq_cases ref
  · exact absurd (proper_intsOf bs) href
  · simp only [genMasks, errorCount_natCast hk, hcheck]

theorem genMasks_short {ref : List Bit} (hw : ref.length < windowWidth mode) :
    genMasks (intsOf ref) k mode s = .refused .shortReference := by
  simp only [genMasks, errorCount_natCast hk, checkSeq_intsOf, if_pos hw]

theorem computeAliases_short (hw : s.REF.length < windowWidth mode) :
    computeAliases mode k s = .refused .shortReference := by
  simp only [computeAliases, errorCount_natCast hk, if_pos hw]

/-- The one response of COMPUTE_ALIASES where it completes. -/
theorem computeAliases_answers (hw : windowWidth mode ≤ s.REF.length) :
    ∃ t, computeAliases mode k s = .next t ∧ t.responses = s.responses ++
      [.ok (.sequences (aliasesAmong s.n s.P mode (signature s.n s.P mode s.REF)
        (candidates (Config.genOrder (windowWidth mode) k) s.REF k (windowWidth mode))))] := by
  refine ⟨_, computeAliases_legal s hk hw, ?_⟩
  rw [State.respond_responses, evaluateAll_responses]

end
end

/-- Settles O44: the one mask for `k = 0` flips nothing, and the reference has its own signature. -/
theorem zeroErrorsGiveTheReference : Obligations.ZeroErrorsGiveTheReference := by
  refine fun s mode => ⟨fun ref hw => ?generated, fun hw => ?aliases⟩
  case generated =>
    have h := genMasks_proper s (Nat.zero_le 4) hw
    rwa [candidates_zero hw] at h
  case aliases =>
    have h := computeAliases_answers s mode (Nat.zero_le 4) hw
    rwa [candidates_zero hw, aliasesAmong, List.filter_singleton, decide_eq_true rfl] at h

/-- Settles O42: the error count is checked before anything else. -/
theorem errorCountsOutsideTheRangeFail : Obligations.ErrorCountsOutsideTheRangeFail := by
  intro s ref k mode
  refine ⟨fun hk => ⟨_, genMasks_outside s mode hk ref, computeAliases_outside s mode hk⟩, ?legal⟩
  rintro ⟨hk0, hk4⟩
  lift k to Nat using hk0
  have hk : k ≤ 4 := by omega
  constructor
  · intro href hw
    obtain ⟨bs, rfl⟩ := proper_iff_intsOf.1 href
    rw [intsOf_length] at hw
    exact ⟨_, genMasks_proper s hk hw⟩
  · intro hw
    obtain ⟨t, ht, hresponses⟩ := computeAliases_answers s mode hk hw
    exact ⟨t, _, ht, hresponses⟩

/-- Settles O43: a legal error count leaves the reference to be checked, its elements before its length (log 24). -/
theorem shortOrImproperReferencesAreRefused : Obligations.ShortOrImproperReferencesAreRefused := by
  intro s ref k mode hk0 hk4
  lift k to Nat using hk0
  have hk : k ≤ 4 := by omega
  refine ⟨genMasks_improper s mode hk, fun href hw => ?_, computeAliases_short s mode hk⟩
  obtain ⟨bs, rfl⟩ := proper_iff_intsOf.1 href
  exact genMasks_short s mode hk (intsOf_length bs ▸ hw)

end Sys2Proof.Machine
end

section
/-! PROOFS. COMPUTE_ALIASES (43_aliasing_tester.md R90 to R99): each evaluation overwrites what the one before left, the
aliases are the candidates with the reference's signature, and there are as many as masks whose ones all lie where the
signature is blind. -/

namespace Sys2Proof.Machine

/-! ### The evaluations, one after another -/

/-- An evaluation resets first, so nothing of the one before it stays. -/
theorem afterSignature_afterSignature (s : State) (mode : ChannelMode) (c d : List Bit) :
    (s.afterSignature mode c).afterSignature mode d = s.afterSignature mode d := by
  cases mode <;> rfl

/-- The registers end as the last evaluation leaves them (43_aliasing_tester.md R93). -/
theorem evaluateAll_afterSignature (s : State) (mode : ChannelMode) (c : List Bit) (cs : List (List Bit)) :
    (s.afterSignature mode c).evaluateAll mode cs = s.afterSignature mode (cs.getLastD c) := by
  induction cs generalizing c with
  | nil => rfl
  | cons d cs ih => rw [State.evaluateAll, afterSignature_afterSignature, ih, List.getLastD_cons]

theorem exec_signatureCommand (mode : ChannelMode) (c : List Bit) (s : State) : exec (signatureCommand mode c) s =
    .next ((s.afterSignature mode c).respond (.ok (.bits (signature s.n s.P mode c)))) := by
  cases mode with
  | single => exact execASigchain_proper c s
  | dual => exact execBSigchain_proper c s

@[simp] theorem afterSignature_responses (s : State) (mode : ChannelMode) (c : List Bit) :
    (s.afterSignature mode c).responses = s.responses := by
  cases mode <;> rfl

/-- The mode's SIGCHAIN command answers the signature and nothing else. -/
theorem answers_signatureCommand_iff {mode : ChannelMode} {c chain : List Bit} {s : State} :
    Answers (signatureCommand mode c) s (.bits chain) ↔ signature s.n s.P mode c = chain := by
  simp [Answers, exec_signatureCommand]

theorem mem_aliasesAmong {n : Nat} {P etalon c : List Bit} {mode : ChannelMode} {cands : List (List Bit)} :
    c ∈ aliasesAmong n P mode etalon cands ↔ c ∈ cands ∧ signature n P mode c = etalon := by
  simp [aliasesAmong]

/-- Settles O45: the aliases are filtered out of what GENMASKS answers, and the state is the last evaluation's. -/
theorem aliasesAreTheCandidatesWithTheReferenceSignature :
    Obligations.AliasesAreTheCandidatesWithTheReferenceSignature := by
  intro s k mode hk hw
  have hcompletes := computeAliases_legal s hk hw
  simp only [evaluateAll_afterSignature] at hcompletes
  refine ⟨_, _, _, hcompletes, congrArg (· ++ [_]) (afterSignature_responses s mode _), genMasks_proper s hk hw,
    List.filter_sublist, fun c hc => ?signatures, ?frame, ?engineA, ?engineB, fun c hlast => ?last⟩
  case signatures => simp [mem_aliasesAmong, hc, answers_signatureCommand_iff]
  case frame => cases mode <;> rfl
  case engineA => rintro rfl; exact ⟨rfl, rfl⟩
  case engineB => rintro rfl; rfl
  case last =>
    refine ⟨_, exec_signatureCommand mode c s, ?_⟩
    rw [List.getLastD_eq_getLast?, hlast]
    exact ⟨rfl, rfl, rfl⟩

/-! ### The masks a signature is blind to -/

/-- Among the sequences of the reference's length, the signature tells all elements but the last `h`. -/
def BlindToLast (n : Nat) (P : List Bit) (mode : ChannelMode) (ref : List Bit) (h : Nat) : Prop :=
  ∀ c : List Bit, c.length = ref.length →
    (signature n P mode c = signature n P mode ref ↔ c.take (ref.length - h) = ref.take (ref.length - h))

theorem zipWith_xor_eq_left_iff {v m : List Bit} (hlength : v.length = m.length) :
    List.zipWith xor v m = v ↔ m.all (! ·) := by
  constructor
  · intro heq
    rw [← zipWith_xor_cancel hlength, heq, List.zipWith_self]
    simp
  · intro hm
    have hzeros : m = List.replicate v.length false :=
      List.eq_replicate_iff.2 ⟨hlength.symm, by simpa using hm⟩
    rw [hzeros, zipWith_xor_zeros]

/-- A mask leaves all elements but the last `h` as they are exactly when its ones are among its last `h`. -/
theorem applyMask_take_eq_iff {ref m : List Bit} {w : Nat} (hw : w ≤ ref.length) (hm : m.length = w) (h : Nat) :
    (applyMask ref m w).take (ref.length - h) = ref.take (ref.length - h) ↔ (m.take (w - h)).all (! ·) := by
  have hshift : ref.length - h - (ref.length - w) = w - h := by omega
  rw [applyMask_eq_xor hw hm, List.take_zipWith, zipWith_xor_eq_left_iff (by simp; omega), List.take_append,
    List.all_append, List.length_replicate, hshift, List.take_replicate]
  simp

section
variable {n h w : Nat} {P ref : List Bit} {mode : ChannelMode} (hblind : BlindToLast n P mode ref h)
include hblind

/-- The number of aliases is the number of masks whose ones are among their last `h`. -/
theorem aliasesAmong_length (hw : w ≤ ref.length) (draw : Nat → Nat) (k : Nat) :
    (aliasesAmong n P mode (signature n P mode ref) (candidates draw ref k w)).length = (min h w).choose k := by
  have hsame : ∀ m ∈ masks w k, decide (signature n P mode (applyMask ref m w) = signature n P mode ref) = true ↔
      (m.take (w - h)).all (! ·) = true := fun m hm => by
    rw [decide_eq_true_iff, hblind _ (applyMask_length ref m w), applyMask_take_eq_iff hw (mem_masks.1 hm).1]
  calc (aliasesAmong n P mode (signature n P mode ref) (candidates draw ref k w)).length
      = (masks w k).countP fun m => signature n P mode (applyMask ref m w) = signature n P mode ref := by
        rw [aliasesAmong, candidates, ← List.countP_eq_length_filter, List.countP_map, (arrange_perm draw _).countP_eq]
        rfl
    _ = (masks w k).countP fun m => (m.take (w - h)).all (! ·) := List.countP_congr hsame
    _ = (min h w).choose k := by
        have hcount := countP_masks_suffix (w - h) (min h w) k
        rwa [show w - h + min h w = w by omega] at hcount

/-- More errors than the elements the signature is blind to leave no aliases. -/
theorem aliasesAmong_eq_nil (hw : w ≤ ref.length) (draw : Nat → Nat) {k : Nat} (hk : h < k) :
    aliasesAmong n P mode (signature n P mode ref) (candidates draw ref k w) = [] := by
  rw [← List.length_eq_zero_iff, aliasesAmong_length hblind hw]
  exact Nat.choose_eq_zero_of_lt ((min_le_left h w).trans_lt hk)

end

/-! ### Where each mode's signature is blind -/

section
variable {s : State} (hs : s.Inv) (ref : List Bit)
include hs

theorem signature_single_eq_iff {c : List Bit} (hlength : c.length = ref.length) :
    (2 ≤ s.n → (signature s.n s.P .single c = signature s.n s.P .single ref ↔ c.dropLast = ref.dropLast)) ∧
    (s.n = 1 → (signature s.n s.P .single c = signature s.n s.P .single ref ↔ c = ref)) := by
  obtain ⟨u, v, hu, hv, hiff⟩ := chainAIsBlindToTheLastBitOnly s c ref hs hlength
  obtain rfl := answers_signatureCommand_iff (mode := .single).1 hu
  obtain rfl := answers_signatureCommand_iff (mode := .single).1 hv
  exact hiff

theorem blindToLast_single_wide (hn : 2 ≤ s.n) : BlindToLast s.n s.P .single ref 1 := by
  intro c hlength
  rw [(signature_single_eq_iff hs ref hlength).1 hn, List.dropLast_eq_take, List.dropLast_eq_take, hlength]

theorem blindToLast_single_widthOne (hn : s.n = 1) : BlindToLast s.n s.P .single ref 0 := by
  intro c hlength
  rw [(signature_single_eq_iff hs ref hlength).2 hn, Nat.sub_zero, List.take_length, ← hlength, List.take_length]

/-- The last `2n` consumed elements, and the unpaired one of an odd length. -/
theorem blindToLast_dual : BlindToLast s.n s.P .dual ref (2 * s.n + ref.length % 2) := by
  intro c hlength
  obtain ⟨u, v, hu, hv, -, hiff⟩ := chainBIsBlindToTheTail s c ref hs hlength
  obtain rfl := answers_signatureCommand_iff (mode := .dual).1 hu
  obtain rfl := answers_signatureCommand_iff (mode := .dual).1 hv
  rw [hiff, hlength, show 2 * (ref.length / 2) - 2 * s.n = ref.length - (2 * s.n + ref.length % 2) by omega]

end

/-! ### The aliases of each mode -/

/-- The reference with its last element flipped is a candidate for one error. -/
theorem flipLast_mem_candidates (draw : Nat → Nat) (v : List Bit) (b : Bit) {w : Nat} (hpos : 1 ≤ w)
    (hw : w ≤ (v ++ [b]).length) : v ++ [!b] ∈ candidates draw (v ++ [b]) 1 w := by
  have hshort : (v ++ [b]).length - w ≤ v.length := by simp; omega
  refine (mem_candidates hw).2 ⟨by simp, ?_, ?_⟩
  · rw [List.take_append_of_le_length hshort, List.take_append_of_le_length hshort]
  · rw [differences_eq_count_drop (d := v.length) (by simp) (by simp)]
    cases b <;> simp

/-- For one error, a signature blind to the last element alone takes only the last element flipped for the reference. -/
theorem aliasesAmong_one_eq {n w : Nat} {P ref : List Bit} {mode : ChannelMode} (hblind : BlindToLast n P mode ref 1)
    (draw : Nat → Nat) (hpos : 1 ≤ w) (hw : w ≤ ref.length) :
    aliasesAmong n P mode (signature n P mode ref) (candidates draw ref 1 w) =
      [ref.dropLast ++ [!(ref.getLastD false)]] := by
  have hone := aliasesAmong_length hblind hw draw 1
  rw [min_eq_left hpos, Nat.choose_self] at hone
  obtain ⟨x, hx⟩ := List.length_eq_one_iff.1 hone
  obtain rfl | ⟨v, b, rfl⟩ := List.eq_nil_or_concat' ref
  · simp at hw; omega
  have hmem : v ++ [!b] ∈ aliasesAmong n P mode (signature n P mode (v ++ [b])) (candidates draw (v ++ [b]) 1 w) :=
    mem_aliasesAmong.2 ⟨flipLast_mem_candidates draw v b hpos hw, (hblind _ (by simp)).2 (by simp)⟩
  rw [hx, List.mem_singleton] at hmem
  rw [hx, ← hmem, List.dropLast_concat, List.getLastD_concat]

/-- Settles O46: engine A is blind to the last element for `n ≥ 2` and to none for `n = 1`, which leaves `C(1, k)` and
`C(0, k)` aliases. -/
theorem aliasesInSingleMode : Obligations.AliasesInSingleMode := by
  intro s k hs hk (hw : windowWidth .single ≤ s.REF.length)
  obtain ⟨t, ht, hresponses⟩ := computeAliases_answers s .single hk hw
  refine ⟨t, _, ht, hresponses, ?none, ?one, fun hn => ?more, fun hn => ?widthOne⟩
  case none =>
    rintro rfl
    simp [candidates_zero hw, aliasesAmong]
  case one =>
    rintro hn rfl
    exact aliasesAmong_one_eq (blindToLast_single_wide hs s.REF hn) _ (by decide) hw
  case more => exact aliasesAmong_eq_nil (blindToLast_single_wide hs s.REF hn) hw _
  case widthOne => exact aliasesAmong_eq_nil (blindToLast_single_widthOne hs s.REF hn) hw _

/-- Settles O47: `aliasesAmong_length` with what engine B is blind to. -/
theorem aliasCountInDualMode : Obligations.AliasCountInDualMode := by
  intro s k hs hk hw
  obtain ⟨t, ht, hresponses⟩ := computeAliases_answers s .dual hk hw
  exact ⟨t, _, ht, hresponses, aliasesAmong_length (blindToLast_dual hs s.REF) hw _ k⟩

end Sys2Proof.Machine
end

section
/-! PROOFS. Failures (60_exceptions.md R103, R104, R106): the status codes of responses, and that nothing of an earlier
response reaches a command. -/

namespace Sys2Proof.Machine

/-- The three statuses use the codes 0 to 2, which leaves 3 unused (60_exceptions.md R104). -/
theorem Status.code_le_two (st : Status) : st.code ≤ 2 := by
  cases st <;> decide

/-- Settles O38: the codes and payloads by each response's form, and no code above 2. -/
theorem statusCodesAreTheSpecs : Obligations.StatusCodesAreTheSpecs := by
  intro p info
  have hunused (r : Response) : r.status.code ≠ 3 := by
    have := r.status.code_le_two
    omega
  exact ⟨rfl, rfl, rfl, hunused, rfl, fun _ => rfl⟩

/-- Settles O10: each engine's effect, register and response alike, is given nothing of the responses. -/
theorem nothingDependsOnEarlierResponses : Obligations.NothingDependsOnEarlierResponses := by
  intro i s l
  cases he : i.onEngineA with
  | true => exact ⟨_, _, exec_engineA he s, State.respond_responses _ _, exec_engineA he _⟩
  | false => exact ⟨_, _, exec_engineB he s, State.respond_responses _ _, exec_engineB he _⟩

end Sys2Proof.Machine
end

section
/-! PROOFS. A hardware reset line (70_reset_and_hazards.md R122): the registers of both engines zeroed, and no response
(log 21). -/

namespace Sys2Proof.Machine

theorem perform_resetLine (s : State) :
    perform .resetLine s = .next ((s.withT (zeros s.n)).withPair (zeros s.n, zeros s.n)) := by
  rw [perform, State.hardReset_eq]

/-- Settles O37: the line is taken out of the queue, then performed, which writes `T` and the register pair only. -/
theorem resetLineZeroesTheRegisters : Obligations.ResetLineZeroesTheRegisters := by
  intro s rest hp
  rw [step_of_pending hp, perform_resetLine]
  rfl

end Sys2Proof.Machine
end
